-- ==== Sys2Proof/Word.lean ====
section
/-! DEFINITION. The bit vectors of the block: bytes, 16-bit words, 12-bit addresses, 4-bit fields (R6, R8, R9).
Every value is unsigned; nothing in this block is ever sign-extended (R9, R73). -/

namespace Sys2Proof

/-- A u8: a memory byte, a general register, a timer, the stack pointer (R6). -/
abbrev Byte := BitVec 8

/-- A u16: an opcode word, `I`, `PC`, a stack slot (R6). -/
abbrev Word := BitVec 16

/-- The 12-bit operand field `nnn` (R72). -/
abbrev Addr12 := BitVec 12

/-- A 4-bit field: `op`, `y`, `n`, a key code (R72, R31). -/
abbrev Nibble := BitVec 4

/-- A register number 0 to 15; four bits, so that no register number is out of range (R38). -/
abbrev Reg := BitVec 4

/-- The register number of `VF`, the block's only flag (R10, R34). -/
def VF : Reg := 0xF

end Sys2Proof
end

