-- ==== Sys2Proof/Config.lean ====
section
/-! DEFINITION. What an implementation fixes: the sizes of R6, the parameters of R7 with their defaults, and the one free
value of the block, the random byte. -/

namespace Sys2Proof

/-! ### Fixed sizes (R6) -/

/-- MEM_SIZE: addresses 0x000 to 0xFFF. -/
def memSize : Nat := 4096
/-- PC_RESET, the entry point (R43). -/
def pcReset : Word := 0x200
/-- PROG_BASE: where `loadProgram` puts an image (R262). -/
def progBase : Nat := 0x200
/-- The longest image `loadProgram` takes: 4096 - 0x200 (R262). -/
def maxImage : Nat := 3584
/-- FONT_LEN: 16 glyphs of 5 bytes. -/
def fontLen : Nat := 80
/-- DISP_W. -/
def dispW : Nat := 64
/-- DISP_H. -/
def dispH : Nat := 32
/-- The highest key code (NUM_KEYS is 16). -/
def maxKey : Nat := 15

/-! ### Parameters (R7) -/

/-- P_OOB: what an address above 0xFFF reaches (R53, D1). -/
inductive OobPolicy where
  | wrap
  | clamp
  | fault
  deriving DecidableEq, Repr

/-- P_STACK: the slot reached when `SP` is 16 or more (R26, D2). -/
inductive StackPolicy where
  | mod16
  | fault
  deriving DecidableEq, Repr

/-- P_DECODE: exact patterns, or the three selectors `op`, `kk`, `n` alone (R76, R77, D3). -/
inductive DecodeMode where
  | strict
  | keyed
  deriving DecidableEq, Repr

/-- P_TIMER_ORDER: where in the step the timers are decremented (R96, D4). -/
inductive TimerOrder where
  | afterExecute
  | beforeFetch
  deriving DecidableEq, Repr

/-- P_VF_ALIAS: what `8xy5`, `8xy6`, `8xy7`, `8xyE` do with `VF` as an operand (R145, D5). -/
inductive VfAlias where
  | sequential
  | refuse
  deriving DecidableEq, Repr

/-- FONT: 80 bytes (R45, D17). -/
abbrev Font := Vector Byte 80

/-- The parameters a model takes as arguments (R7). RND is not here: it is `Config.randomByte`. -/
structure Params where
  oob    : OobPolicy
  stack  : StackPolicy
  decode : DecodeMode
  timers : TimerOrder
  vfAlias : VfAlias
  font   : Font
  deriving DecidableEq, Repr

/-- The default of FONT, the table of R45. PRESUMED: the spec marks these bytes as general knowledge, not the source's
(D17, gap N1; log entry 6). -/
def defaultFont : Font := #v[
  0xF0, 0x90, 0x90, 0x90, 0xF0,  0x20, 0x60, 0x20, 0x20, 0x70,
  0xF0, 0x10, 0xF0, 0x80, 0xF0,  0xF0, 0x10, 0xF0, 0x10, 0xF0,
  0x90, 0x90, 0xF0, 0x10, 0x10,  0xF0, 0x80, 0xF0, 0x10, 0xF0,
  0xF0, 0x80, 0xF0, 0x90, 0xF0,  0xF0, 0x10, 0x20, 0x40, 0x40,
  0xF0, 0x90, 0xF0, 0x90, 0xF0,  0xF0, 0x90, 0xF0, 0x10, 0xF0,
  0xF0, 0x90, 0xF0, 0x90, 0x90,  0xE0, 0x90, 0xE0, 0x90, 0xE0,
  0xF0, 0x80, 0x80, 0x80, 0xF0,  0xE0, 0x90, 0x90, 0x90, 0xE0,
  0xF0, 0x80, 0xF0, 0x80, 0xF0,  0xF0, 0x80, 0xF0, 0x80, 0x80]

/-- The defaults of R7 (D1 to D5, D17; log entries 1 to 6). -/
def Params.default : Params :=
  { oob := .wrap, stack := .mod16, decode := .strict, timers := .afterExecute, vfAlias := .sequential,
    font := defaultFont }

/-- RND (R7, R150): the byte of the `n`-th draw. A free value: it has no body, so that nothing can be proved of any draw
and a claim holds for every byte each draw can return (log entry 7). -/
opaque Config.randomByte : Nat → Byte

end Sys2Proof
end

