-- ==== Sys2Proof/WellFormed.lean ====
section
/-! DEFINITION. Which terms are well formed. An instruction's fields have the widths of R72 by their types, so every
instruction is well formed (R38, R73); what the spec bounds by a rule instead are the arguments of the host's operations:
a key code is 0 to 15 (R201) and an image has at most 3584 bytes (R262). -/

namespace Sys2Proof

/-- Every instruction is well formed: register numbers are 4 bits, immediates 8, addresses 12, row counts 4 (R38, R73). -/
def Instr.wellFormed (_ : Instr) : Bool := true

/-- The operations of the block that the host performs (R246). Arguments are as the host passes them, in range or not. -/
inductive HostOp where
  /-- engine initialization, at first start and later (R260, R261) -/
  | reset
  /-- copy an image into memory from 0x200 (R262) -/
  | loadProgram (bytes : List Byte)
  /-- one engine step (R97) -/
  | step
  /-- a key goes down (R204) -/
  | onKeyDown (key : Nat)
  /-- a key goes up (R205) -/
  | onKeyUp (key : Nat)
  /-- the renderer's view of the framebuffer (R184) -/
  | getDisplay
  deriving DecidableEq, Repr

/-- A key code is 0 to 15 (R201). -/
def keyWellFormed (key : Nat) : Bool := decide (key ≤ maxKey)

/-- An image has at most 4096 - 0x200 = 3584 bytes (R262). -/
def imageWellFormed (bytes : List Byte) : Bool := decide (bytes.length ≤ maxImage)

/-- The host's duties on arguments (R247). -/
def HostOp.wellFormed : HostOp → Bool
  | .reset => true
  | .loadProgram bytes => imageWellFormed bytes
  | .step => true
  | .onKeyDown key => keyWellFormed key
  | .onKeyUp key => keyWellFormed key
  | .getDisplay => true

end Sys2Proof
end

