-- ==== Sys2Proof/Decode.lean ====
section
/-! DEFINITION. The fields of an opcode word (R72), the opcode map (R75 to R78), the decoder in both modes, and the
encoder written from the same map. Decoding is total: a word is one of the 34 instructions or unrecognized (R79). -/

namespace Sys2Proof

/-! ### Fields (R72) -/

/-- `op = w[15:12]` -/
def fieldOp (w : Word) : Nibble := w.extractLsb' 12 4
/-- `x = w[11:8]` -/
def fieldX (w : Word) : Reg := w.extractLsb' 8 4
/-- `y = w[7:4]` -/
def fieldY (w : Word) : Reg := w.extractLsb' 4 4
/-- `n = w[3:0]` -/
def fieldN (w : Word) : Nibble := w.extractLsb' 0 4
/-- `nnn = w[11:0]` -/
def fieldNnn (w : Word) : Addr12 := w.extractLsb' 0 12
/-- `kk = w[7:0]` -/
def fieldKk (w : Word) : Byte := w.extractLsb' 0 8

/-- The opcode word of two consecutive bytes, the first the high one (R57, R92). -/
def wordOfBytes (hi lo : Byte) : Word := (hi.setWidth 16 <<< 8) ||| lo.setWidth 16

/-- The byte of a word at the lower address (R57). -/
def highByte (w : Word) : Byte := w.extractLsb' 8 8
/-- The byte of a word at the higher address (R57). -/
def lowByte (w : Word) : Byte := w.extractLsb' 0 8

/-! ### Decoding (R74 to R80) -/

/-- The result of decoding a word: an instruction, or the name of its rejection, "unrecognized" (R79, R93). -/
inductive Decoded where
  | instr (i : Instr)
  | unrecognized (w : Word)
  deriving DecidableEq, Repr

/-- Whether a digit the pattern writes as 0 is accepted: always under keyed, only as 0 under strict (R76, R77). -/
def fixedZero (m : DecodeMode) (digit : Nibble) : Bool := decide (m = .keyed) || decide (digit = 0)

/-- `op` 0: selected by `kk` (R74). -/
def decodeSys (m : DecodeMode) (w : Word) : Decoded :=
  match fixedZero m (fieldX w), (fieldKk w).toNat with
  | true, 0xE0 => .instr .cls
  | true, 0xEE => .instr .ret
  | _, _ => .unrecognized w

/-- `op` 8: selected by the last nibble (R74). -/
def decodeAlu (w : Word) : Decoded :=
  match (fieldN w).toNat with
  | 0x0 => .instr (.ldReg (fieldX w) (fieldY w))
  | 0x1 => .instr (.orReg (fieldX w) (fieldY w))
  | 0x2 => .instr (.andReg (fieldX w) (fieldY w))
  | 0x3 => .instr (.xorReg (fieldX w) (fieldY w))
  | 0x4 => .instr (.addReg (fieldX w) (fieldY w))
  | 0x5 => .instr (.subReg (fieldX w) (fieldY w))
  | 0x6 => .instr (.shr (fieldX w) (fieldY w))
  | 0x7 => .instr (.subn (fieldX w) (fieldY w))
  | 0xE => .instr (.shl (fieldX w) (fieldY w))
  | _ => .unrecognized w

/-- `op` E: selected by `kk` (R74). -/
def decodeKey (w : Word) : Decoded :=
  match (fieldKk w).toNat with
  | 0x9E => .instr (.skp (fieldX w))
  | 0xA1 => .instr (.sknp (fieldX w))
  | _ => .unrecognized w

/-- `op` F: selected by `kk` (R74). -/
def decodeMisc (w : Word) : Decoded :=
  match (fieldKk w).toNat with
  | 0x07 => .instr (.ldVxDT (fieldX w))
  | 0x0A => .instr (.ldVxK (fieldX w))
  | 0x15 => .instr (.ldDTVx (fieldX w))
  | 0x18 => .instr (.ldSTVx (fieldX w))
  | 0x1E => .instr (.addI (fieldX w))
  | 0x29 => .instr (.ldF (fieldX w))
  | 0x33 => .instr (.ldB (fieldX w))
  | 0x55 => .instr (.stRegs (fieldX w))
  | 0x65 => .instr (.ldRegs (fieldX w))
  | _ => .unrecognized w

/-- The decoder: `op` first, then the second selector (R74, R75 under strict, R77 under keyed). -/
def decode (m : DecodeMode) (w : Word) : Decoded :=
  match (fieldOp w).toNat with
  | 0x0 => decodeSys m w
  | 0x1 => .instr (.jp (fieldNnn w))
  | 0x2 => .instr (.call (fieldNnn w))
  | 0x3 => .instr (.seImm (fieldX w) (fieldKk w))
  | 0x4 => .instr (.sneImm (fieldX w) (fieldKk w))
  | 0x5 => if fixedZero m (fieldN w) then .instr (.seReg (fieldX w) (fieldY w)) else .unrecognized w
  | 0x6 => .instr (.ldImm (fieldX w) (fieldKk w))
  | 0x7 => .instr (.addImm (fieldX w) (fieldKk w))
  | 0x8 => decodeAlu w
  | 0x9 => if fixedZero m (fieldN w) then .instr (.sneReg (fieldX w) (fieldY w)) else .unrecognized w
  | 0xA => .instr (.ldI (fieldNnn w))
  | 0xB => .instr (.ldIV0 (fieldNnn w))
  | 0xC => .instr (.rnd (fieldX w) (fieldKk w))
  | 0xD => .instr (.drw (fieldX w) (fieldY w) (fieldN w))
  | 0xE => decodeKey w
  | 0xF => decodeMisc w
  | _ => .unrecognized w

/-! ### Encoding (R71, R75) -/

/-- Format NNN: `op` and a 12-bit field. -/
def wordNnn (op : Nibble) (nnn : Addr12) : Word := (op.setWidth 16 <<< 12) ||| nnn.setWidth 16

/-- Formats XKK and X: `op`, `x` and a byte (an operand, or the fixed `kk` of an X row). -/
def wordXkk (op : Nibble) (x : Reg) (kk : Byte) : Word :=
  (op.setWidth 16 <<< 12) ||| (x.setWidth 16 <<< 8) ||| kk.setWidth 16

/-- Formats XY and XYN: `op`, `x`, `y` and a last nibble. -/
def wordXyn (op : Nibble) (x y : Reg) (n : Nibble) : Word :=
  (op.setWidth 16 <<< 12) ||| (x.setWidth 16 <<< 8) ||| (y.setWidth 16 <<< 4) ||| n.setWidth 16

/-- The word of an instruction: its row's fixed bits and its fields (R75, and the Encoding line of each rule). -/
def encode : Instr → Word
  | .cls => 0x00E0
  | .ret => 0x00EE
  | .jp nnn => wordNnn 0x1 nnn
  | .call nnn => wordNnn 0x2 nnn
  | .seImm x kk => wordXkk 0x3 x kk
  | .sneImm x kk => wordXkk 0x4 x kk
  | .seReg x y => wordXyn 0x5 x y 0x0
  | .ldImm x kk => wordXkk 0x6 x kk
  | .addImm x kk => wordXkk 0x7 x kk
  | .ldReg x y => wordXyn 0x8 x y 0x0
  | .orReg x y => wordXyn 0x8 x y 0x1
  | .andReg x y => wordXyn 0x8 x y 0x2
  | .xorReg x y => wordXyn 0x8 x y 0x3
  | .addReg x y => wordXyn 0x8 x y 0x4
  | .subReg x y => wordXyn 0x8 x y 0x5
  | .shr x y => wordXyn 0x8 x y 0x6
  | .subn x y => wordXyn 0x8 x y 0x7
  | .shl x y => wordXyn 0x8 x y 0xE
  | .sneReg x y => wordXyn 0x9 x y 0x0
  | .ldI nnn => wordNnn 0xA nnn
  | .ldIV0 nnn => wordNnn 0xB nnn
  | .rnd x kk => wordXkk 0xC x kk
  | .drw x y n => wordXyn 0xD x y n
  | .skp x => wordXkk 0xE x 0x9E
  | .sknp x => wordXkk 0xE x 0xA1
  | .ldVxDT x => wordXkk 0xF x 0x07
  | .ldVxK x => wordXkk 0xF x 0x0A
  | .ldDTVx x => wordXkk 0xF x 0x15
  | .ldSTVx x => wordXkk 0xF x 0x18
  | .addI x => wordXkk 0xF x 0x1E
  | .ldF x => wordXkk 0xF x 0x29
  | .ldB x => wordXkk 0xF x 0x33
  | .stRegs x => wordXkk 0xF x 0x55
  | .ldRegs x => wordXkk 0xF x 0x65

/-! ### The opcode map as the spec prints it (R75, R77) -/

/-- The `match` column of an instruction's row in R75. -/
def rowMatch : Instr → Word
  | .cls => 0x00E0
  | .ret => 0x00EE
  | .jp _ => 0x1000
  | .call _ => 0x2000
  | .seImm _ _ => 0x3000
  | .sneImm _ _ => 0x4000
  | .seReg _ _ => 0x5000
  | .ldImm _ _ => 0x6000
  | .addImm _ _ => 0x7000
  | .ldReg _ _ => 0x8000
  | .orReg _ _ => 0x8001
  | .andReg _ _ => 0x8002
  | .xorReg _ _ => 0x8003
  | .addReg _ _ => 0x8004
  | .subReg _ _ => 0x8005
  | .shr _ _ => 0x8006
  | .subn _ _ => 0x8007
  | .shl _ _ => 0x800E
  | .sneReg _ _ => 0x9000
  | .ldI _ => 0xA000
  | .ldIV0 _ => 0xB000
  | .rnd _ _ => 0xC000
  | .drw _ _ _ => 0xD000
  | .skp _ => 0xE09E
  | .sknp _ => 0xE0A1
  | .ldVxDT _ => 0xF007
  | .ldVxK _ => 0xF00A
  | .ldDTVx _ => 0xF015
  | .ldSTVx _ => 0xF018
  | .addI _ => 0xF01E
  | .ldF _ => 0xF029
  | .ldB _ => 0xF033
  | .stRegs _ => 0xF055
  | .ldRegs _ => 0xF065

/-- The `mask` column of an instruction's row in R75, and under keyed the four masks of R77 that differ. -/
def rowMask (m : DecodeMode) : Instr → Word
  | .cls => if m = .keyed then 0xF0FF else 0xFFFF
  | .ret => if m = .keyed then 0xF0FF else 0xFFFF
  | .jp _ => 0xF000
  | .call _ => 0xF000
  | .seImm _ _ => 0xF000
  | .sneImm _ _ => 0xF000
  | .seReg _ _ => if m = .keyed then 0xF000 else 0xF00F
  | .ldImm _ _ => 0xF000
  | .addImm _ _ => 0xF000
  | .ldReg _ _ => 0xF00F
  | .orReg _ _ => 0xF00F
  | .andReg _ _ => 0xF00F
  | .xorReg _ _ => 0xF00F
  | .addReg _ _ => 0xF00F
  | .subReg _ _ => 0xF00F
  | .shr _ _ => 0xF00F
  | .subn _ _ => 0xF00F
  | .shl _ _ => 0xF00F
  | .sneReg _ _ => if m = .keyed then 0xF000 else 0xF00F
  | .ldI _ => 0xF000
  | .ldIV0 _ => 0xF000
  | .rnd _ _ => 0xF000
  | .drw _ _ _ => 0xF000
  | .skp _ => 0xF0FF
  | .sknp _ => 0xF0FF
  | .ldVxDT _ => 0xF0FF
  | .ldVxK _ => 0xF0FF
  | .ldDTVx _ => 0xF0FF
  | .ldSTVx _ => 0xF0FF
  | .addI _ => 0xF0FF
  | .ldF _ => 0xF0FF
  | .ldB _ => 0xF0FF
  | .stRegs _ => 0xF0FF
  | .ldRegs _ => 0xF0FF

/-! ### The host's view of the opcode table -/

/-- The instruction of a decoding, if it is one. -/
def Decoded.toInstr? : Decoded → Option Instr
  | .instr i => some i
  | .unrecognized _ => none

/-- What the decoder reads from an instruction whose bits are `w`, `nbits` of them given by spec/opcode_table.json and the
rest 0: the word is laid out as memory holds it, high byte first, and read back (R57). Strict mode, whose masks are the
table's own `mask` column (R76). -/
def decodeTableWord (nbits w : Nat) : Option Instr :=
  let word : Word := BitVec.ofNat 16 (w % 2 ^ nbits)
  (decode .strict (wordOfBytes (highByte word) (lowByte word))).toInstr?

end Sys2Proof
end

