-- ==== Sys2Proof/Machine/State.lean ====
section
/-! DEFINITION. The state of the block (10_state.md), the reasons a step or a host operation can stop, and the state after
reset (R40). All of it is plain data. -/

namespace Sys2Proof.Machine

/-- The model faults and the one refusal a step can meet (R237). They exist only under non-default parameters. -/
inductive ModelFault where
  /-- `OutOfRange(a)`: a memory access at `a` above 0xFFF under P_OOB = fault (R53). -/
  | outOfRange (a : Nat)
  /-- `StackOutOfRange(SP)`: a slot access with `SP` at 16 or more under P_STACK = fault (R26). -/
  | stackOutOfRange (sp : Byte)
  /-- `VFOperand(w)`: the word `w` uses `VF` as an operand of `8xy5`, `8xy6`, `8xy7` or `8xyE` under P_VF_ALIAS = refuse
  (R145). -/
  | vfOperand (w : Word)
  deriving DecidableEq, Repr

/-- Why a step answers a fault. -/
inductive Fault where
  /-- Raised by `step` alone, on a state that an earlier step left faulted: "a faulted state takes no further step" (R39,
  R97). Safe: the spec gives such a state no step. -/
  | faulted (why : ModelFault)
  deriving DecidableEq, Repr

/-- Why an operation is refused. -/
inductive Refusal where
  /-- Raised by `exec` for an instruction without a meaning in this model. Safe. No arm uses it: all 34 have theirs. -/
  | notModelled (mnemonic : String)
  /-- Raised by the meanings of `8xy5`, `8xy6`, `8xy7`, `8xyE` under P_VF_ALIAS = refuse; `step` turns it into the state
  R145 describes (everything as before the step, `faulted` set). Safe: it is the spec's own refusal. -/
  | vfOperand
  /-- Raised by the host operations `onKeyDown` and `onKeyUp` for a code above 15 (R201, D10). Safe: the spec gives such a
  call no move. -/
  | badKeyCode (key : Nat)
  /-- Raised by the host operation `loadProgram` for an image longer than 3584 bytes (R262, D11). Safe: the spec gives such
  a call no move. -/
  | programTooLong (len : Nat)
  deriving DecidableEq, Repr

/-- The framebuffer: row `r` is a 64-bit row of pixels whose bit `c` is `fb(c, r)`, 1 for lit (R30, D22). -/
abbrev Framebuffer := Vector (BitVec 64) 32

/-- Everything the spec gives the machine (10_state.md section 1), the parameters of R7, and the count of random draws. -/
structure State where
  /-- the bytes of `mem[0..4095]` that differ from the reset contents, by rising address (R50) -/
  mem     : List Host.Cell
  /-- `V[0..15]` (R20) -/
  v       : Vector Byte 16
  /-- `I` (R23) -/
  idx     : Word
  /-- `PC` (R24) -/
  pc      : Word
  /-- `SP` (R25) -/
  sp      : Byte
  /-- `stack[0..15]` (R26) -/
  stack   : Vector Word 16
  /-- `DT` (R27) -/
  dt      : Byte
  /-- `ST` (R28) -/
  st      : Byte
  /-- `paused` (R29) -/
  paused  : Bool
  /-- `fb` (R30) -/
  fb      : Framebuffer
  /-- `pressed`, bit `k` for key `k` (R31) -/
  pressed : BitVec 16
  /-- `pending` (R32) -/
  pending : Option Reg
  /-- `faulted` with its reason, model-only (R39, R237) -/
  faulted : Option ModelFault
  /-- how many random bytes have been drawn; the model's own field, which makes each draw of R150 a fresh one (log entry 7) -/
  draws   : Nat
  /-- the parameters of R7, which no operation writes -/
  params  : Params
  deriving DecidableEq, Repr

/-- What memory holds after reset, and so what an unlisted address reads as: FONT in 0x000 to 0x04F, 0 elsewhere (R40,
R45, R55). -/
def resetByte (font : Font) (a : Nat) : Byte :=
  if h : a < 80 then font[a] else 0

/-- The state after reset under given parameters (R40, R260). -/
def State.resetWith (p : Params) : State :=
  { mem := [], v := Vector.replicate 16 0, idx := 0, pc := pcReset, sp := 0, stack := Vector.replicate 16 0,
    dt := 0, st := 0, paused := false, fb := Vector.replicate 32 0, pressed := 0, pending := none, faulted := none,
    draws := 0, params := p }

/-- The machine right after reset, under the default parameters (R7, R40). -/
def State.reset : State := State.resetWith Params.default

end Sys2Proof.Machine
end

