-- ==== Sys2Proof/Machine/Ops.lean ====
section
/-! DEFINITION. The named operations on registers, memory, the stack, the Display, the Keyboard and the timers. Every
meaning is written over these, so that each register and each byte has one home. -/

namespace Sys2Proof.Machine

/-! ### Registers -/

/-- `V[x]` (R10, R20). -/
def State.reg (s : State) (x : Reg) : Byte := s.v[x.toNat]'x.isLt

/-- `V[x] <- b` (R10, R20). -/
def State.setReg (s : State) (x : Reg) (b : Byte) : State := { s with v := s.v.set x.toNat b x.isLt }

/-- `I <- w` (R23). -/
def State.setIdx (s : State) (w : Word) : State := { s with idx := w }

/-- `PC <- w` (R24). -/
def State.setPc (s : State) (w : Word) : State := { s with pc := w }

/-- `SP <- b` (R25). -/
def State.setSp (s : State) (b : Byte) : State := { s with sp := b }

/-- `DT <- b` (R27). -/
def State.setDt (s : State) (b : Byte) : State := { s with dt := b }

/-- `ST <- b` (R28). -/
def State.setSt (s : State) (b : Byte) : State := { s with st := b }

/-- `stack[j]` (R10, R26). -/
def State.slot (s : State) (j : Fin 16) : Word := s.stack[j]

/-- `stack[j] <- w` (R10, R26). -/
def State.setSlot (s : State) (j : Fin 16) (w : Word) : State := { s with stack := s.stack.set j w j.isLt }

/-- The advance of `PC` by 2, modulo 65536 (R94), and what a taken skip adds (R113). -/
def State.advance (s : State) : State := s.setPc (s.pc + 2)

/-- A skip: `PC <- (PC + 2) mod 65536` if the test holds (R113 to R116, R206, R207). -/
def State.skipIf (s : State) (taken : Bool) : State := if taken then s.advance else s

/-! ### The model fault -/

/-- `fault <Reason>(info)`: the state marked faulted, everything else as it stood (R13, R39, R54). The block has no
exception entry (R235); this mark is all a fault does. -/
def State.markFault (s : State) (why : ModelFault) : State := { s with faulted := some why }

/-! ### Memory -/

/-- The byte of a memory list at `a`: its entry, or the reset contents where there is none. -/
def memGet (font : Font) (m : List Host.Cell) (a : Nat) : Byte :=
  match m with
  | [] => resetByte font a
  | c :: rest => if c.1 = a then c.2 else memGet font rest a

/-- A memory list without its entries at `a`. -/
def memErase (m : List Host.Cell) (a : Nat) : List Host.Cell :=
  match m with
  | [] => []
  | c :: rest => if c.1 = a then memErase rest a else c :: memErase rest a

/-- A memory list with an entry at `a` put before the first higher address. -/
def memInsert (m : List Host.Cell) (a : Nat) (b : Byte) : List Host.Cell :=
  match m with
  | [] => [(a, b)]
  | c :: rest => if a < c.1 then (a, b) :: c :: rest else c :: memInsert rest a b

/-- Write one byte, keeping the canonical form: writing what reset leaves there removes the entry. -/
def memSet (font : Font) (m : List Host.Cell) (a : Nat) (b : Byte) : List Host.Cell :=
  if b = resetByte font a then memErase m a else memInsert (memErase m a) a b

/-- Addresses strictly rising, from `lo` on. -/
def risingFrom (lo : Nat) : List Host.Cell → Bool
  | [] => true
  | c :: rest => decide (lo ≤ c.1) && risingFrom (c.1 + 1) rest

/-- The canonical form of memory: addresses strictly rising and below 4096, no entry equal to the reset contents. -/
def memWf (font : Font) (m : List Host.Cell) : Bool :=
  risingFrom 0 m && m.all (fun c => decide (c.1 < memSize) && decide (c.2 ≠ resetByte font c.1))

/-- `mem[a]` (R50). -/
def State.byteAt (s : State) (a : Nat) : Byte := memGet s.params.font s.mem a

/-- `mem[a] <- b` (R50). -/
def State.setByte (s : State) (a : Nat) (b : Byte) : State := { s with mem := memSet s.params.font s.mem a b }

/-- The address that an access to `a` reaches under P_OOB (R53). `a` is exact, with no cut to 16 bits. -/
def eff (p : OobPolicy) (a : Nat) : Except ModelFault Nat :=
  match p with
  | .wrap => .ok (a % memSize)
  | .clamp => .ok (min a (memSize - 1))
  | .fault => if a > memSize - 1 then .error (.outOfRange a) else .ok a

/-- `MemRead(a, 1)` (R12, R53). -/
def State.memRead (s : State) (a : Nat) : Except ModelFault Byte :=
  match eff s.params.oob a with
  | .ok e => .ok (s.byteAt e)
  | .error f => .error f

/-- `MemWrite(a, 1, b)` (R12, R53). -/
def State.memWrite (s : State) (a : Nat) (b : Byte) : Except ModelFault State :=
  match eff s.params.oob a with
  | .ok e => .ok (s.setByte e b)
  | .error f => .error f

/-- `MemWrite` of consecutive bytes from `a` up; the first fault ends it, with the earlier writes kept (R54, R165, R166). -/
def storeBytes : List Byte → Nat → State → State
  | [], _, s => s
  | b :: rest, a, s =>
    match s.memWrite a b with
    | .ok s' => storeBytes rest (a + 1) s'
    | .error f => s.markFault f

/-- `V[r] <- MemRead` of consecutive addresses from `a` up; the first fault ends it, with the earlier register writes kept
(R54, R167). -/
def loadBytes : List Reg → Nat → State → State
  | [], _, s => s
  | r :: rest, a, s =>
    match s.memRead a with
    | .ok b => loadBytes rest (a + 1) (s.setReg r b)
    | .error f => s.markFault f

/-- The image copy of `loadProgram`: consecutive bytes at addresses that exist (R262). -/
def copyImage : List Byte → Nat → State → State
  | [], _, s => s
  | b :: rest, a, s => copyImage rest (a + 1) (s.setByte a b)

/-- The fetch: two byte reads, the lower address the high byte (R57, R92). -/
def State.fetch (s : State) : Except ModelFault (Byte × Byte) :=
  match s.memRead s.pc.toNat with
  | .error f => .error f
  | .ok hi =>
    match s.memRead (s.pc.toNat + 1) with
    | .error f => .error f
    | .ok lo => .ok (hi, lo)

/-! ### The stack -/

/-- `slot(SP)` under P_STACK (R26). -/
def slotOf (p : StackPolicy) (sp : Byte) : Except ModelFault (Fin 16) :=
  match p with
  | .mod16 => .ok ⟨sp.toNat % 16, Nat.mod_lt _ (by decide)⟩
  | .fault => if h : sp.toNat < 16 then .ok ⟨sp.toNat, h⟩ else .error (.stackOutOfRange sp)

/-! ### The Display (R180 to R184) -/

/-- `fb(c, r)`, coordinates taken modulo the width and the height (R30). -/
def pixel (fb : Framebuffer) (c r : Nat) : Bool :=
  (fb[r % 32]'(Nat.mod_lt _ (by decide))).getLsbD (c % 64)

/-- `ClearDisplay()` (R181). -/
def clearDisplay : Framebuffer := Vector.replicate 32 0

/-- `DrawPixel(c, r)`: flip the pixel; whether it was lit before (R182). -/
def drawPixel (fb : Framebuffer) (c r : Nat) : Framebuffer × Bool :=
  (fb.set (r % 32) ((fb[r % 32]'(Nat.mod_lt _ (by decide))) ^^^ BitVec.twoPow 64 (c % 64)) (Nat.mod_lt _ (by decide)),
    pixel fb c r)

/-- Put a framebuffer into the state. -/
def State.setFb (s : State) (fb : Framebuffer) : State := { s with fb := fb }

/-- One column of a sprite row: bit `7 - col` of the byte is drawn if it is 1 (R188). -/
def drawBit (b : Byte) (px py : Nat) (acc : Framebuffer × Bool) (col : Nat) : Framebuffer × Bool :=
  if b.getLsbD (7 - col) then
    let drawn := drawPixel acc.1 (px + col) py
    (drawn.1, acc.2 || drawn.2)
  else acc

/-- One sprite row, columns 0 to 7, most significant bit first (R188). -/
def drawRow (b : Byte) (px py : Nat) (acc : Framebuffer × Bool) : Framebuffer × Bool :=
  [0, 1, 2, 3, 4, 5, 6, 7].foldl (drawBit b px py) acc

/-! ### The Keyboard (R200 to R205) -/

/-- `IsPressed(k)`: whether `k` is in `pressed`; false for every `k` above 15 (R202, D24). -/
def State.isPressed (s : State) (k : Byte) : Bool := s.pressed.getLsbD k.toNat

/-- `SetOnKeyPress(t)`: the last writer wins (R203). -/
def State.setOnKeyPress (s : State) (t : Reg) : State := { s with pending := some t }

/-- `paused <- b` (R29). -/
def State.setPaused (s : State) (b : Bool) : State := { s with paused := b }

/-- `pending <- none` (R204). -/
def State.clearPending (s : State) : State := { s with pending := none }

/-- `pressed ∪ {k}` (R204). -/
def State.addKey (s : State) (k : Nibble) : State :=
  { s with pressed := s.pressed ||| BitVec.twoPow 16 k.toNat }

/-- `pressed \ {k}` (R205). -/
def State.removeKey (s : State) (k : Nibble) : State :=
  { s with pressed := s.pressed &&& ~~~ BitVec.twoPow 16 k.toNat }

/-- The pending callback of `Fx0A`, fired with `k` if there is one: the register takes the key, the pause ends, the slot is
emptied (R204). -/
def State.firePending (s : State) (k : Nibble) : State :=
  match s.pending with
  | none => s
  | some t => ((s.setReg t (k.setWidth 8)).setPaused false).clearPending

/-! ### Timers -/

/-- One timer's decrement, which stops at 0 (R220). -/
def decTimer (t : Byte) : Byte := if t = 0 then 0 else t - 1

/-- `DecTimers()` (R220). -/
def State.decTimers (s : State) : State := (s.setDt (decTimer s.dt)).setSt (decTimer s.st)

/-! ### The random byte -/

/-- The next byte of RND (R150): a free value. -/
def State.randomByte (s : State) : Byte := Config.randomByte s.draws

/-- The draw is used up, so that the next call is a fresh one (R150). -/
def State.countDraw (s : State) : State := { s with draws := s.draws + 1 }

end Sys2Proof.Machine
end

