-- ==== Sys2Proof/Machine/Operands.lean ====
section
/-! DEFINITION. The operand forms: zero extension of fields (R73), the one data addressing mode "index plus small constant"
(R168), the glyph address, the register range of `Fx55` and `Fx65`, and the decimal digits of `Fx33`. -/

namespace Sys2Proof.Machine

/-- `zext_16(nnn)` (R73). -/
def zextAddr (nnn : Addr12) : Word := nnn.setWidth 16

/-- `zext_16(v)` of a byte, for arithmetic on `I` (R161, R162). -/
def zextByte (b : Byte) : Word := b.setWidth 16

/-- The base of a data access: `I`, as an exact number, from which `I + k` is counted (R168). -/
def State.dataBase (s : State) : Nat := s.idx.toNat

/-- Registers `V0` to `Vx`, ascending (R166, R167). -/
def regsUpTo (x : Reg) : List Reg := (List.range (x.toNat + 1)).map (BitVec.ofNat 4)

/-- The values of `V0` to `Vx`, ascending (R166). -/
def State.regValues (s : State) (x : Reg) : List Byte := (regsUpTo x).map s.reg

/-- Hundreds, tens and ones of a byte, in the order they are stored (R165). -/
def decimalDigits (b : Byte) : List Byte :=
  [BitVec.ofNat 8 (b.toNat / 100), BitVec.ofNat 8 (b.toNat / 10 % 10), BitVec.ofNat 8 (b.toNat % 10)]

/-- `V[x] * 5`, not masked to a nibble; at most 1275 (R164). -/
def glyphAddr (b : Byte) : Word := BitVec.ofNat 16 (b.toNat * 5)

end Sys2Proof.Machine
end

