-- ==== Sys2Proof/Machine/Flags.lean ====
section
/-! DEFINITION. The values the flag instructions leave in `VF` (R34), the order in which they write it, and the test of
P_VF_ALIAS (R145). -/

namespace Sys2Proof.Machine

/-- The carry of `8xy4`: 1 if the exact sum exceeds 255 (R140). -/
def carryFlag (a b : Byte) : Byte := if a.toNat + b.toNat > 255 then 1 else 0

/-- The strict comparison of `8xy5` and `8xy7`: 1 if `a > b`, unsigned; equal operands give 0 (R141, R143). -/
def greaterFlag (a b : Byte) : Byte := if a.toNat > b.toNat then 1 else 0

/-- The bit shifted out by `8xy6`, 0 or 1 (R142). -/
def shrFlag (a : Byte) : Byte := a &&& 1

/-- The bit shifted out by `8xyE`, raw: 0x00 or 0x80, not 0 or 1 (R144). -/
def shlFlag (a : Byte) : Byte := a &&& 0x80

/-- The collision flag of `Dxyn` (R188). -/
def collisionFlag (hit : Bool) : Byte := if hit then 1 else 0

/-- "VF first, then Vx": the flag is written, and the result reads the state that write left (R11, R141 to R145). -/
def State.flagThenResult (s : State) (flag : Byte) (x : Reg) (result : State → Byte) : State :=
  let s1 := s.setReg VF flag
  s1.setReg x (result s1)

/-- "Vx first, then VF" of `8xy4`: both values are computed before any write, and `VF` is written last (R140). -/
def State.resultThenFlag (s : State) (x : Reg) (result flag : Byte) : State :=
  (s.setReg x result).setReg VF flag

/-- Whether P_VF_ALIAS refuses an instruction that reads these registers as operands (R145). -/
def vfRefused (p : VfAlias) (operands : List Reg) : Bool := decide (p = .refuse) && operands.contains VF

end Sys2Proof.Machine
end

