-- ==== Sys2Proof/Machine/Alu.lean ====
section
/-! DEFINITION. Register arithmetic and logic (42_alu.md). Register arithmetic wraps modulo 256 (R146). -/

namespace Sys2Proof.Machine

/-- `6xkk` LD Vx, kk (R130). -/
def execLdImm (x : Reg) (kk : Byte) (s : State) : Host.Outcome State Fault Refusal := .next (s.setReg x kk)

/-- `7xkk` ADD Vx, kk: no flag (R131). -/
def execAddImm (x : Reg) (kk : Byte) (s : State) : Host.Outcome State Fault Refusal := .next (s.setReg x (s.reg x + kk))

/-- `8xy0` LD Vx, Vy (R132). -/
def execLdReg (x y : Reg) (s : State) : Host.Outcome State Fault Refusal := .next (s.setReg x (s.reg y))

/-- `8xy1` OR Vx, Vy: `VF` is not reset (R133). -/
def execOrReg (x y : Reg) (s : State) : Host.Outcome State Fault Refusal := .next (s.setReg x (s.reg x ||| s.reg y))

/-- `8xy2` AND Vx, Vy (R134). -/
def execAndReg (x y : Reg) (s : State) : Host.Outcome State Fault Refusal := .next (s.setReg x (s.reg x &&& s.reg y))

/-- `8xy3` XOR Vx, Vy (R135). -/
def execXorReg (x y : Reg) (s : State) : Host.Outcome State Fault Refusal := .next (s.setReg x (s.reg x ^^^ s.reg y))

/-- `8xy4` ADD Vx, Vy: the sum is taken before any write and the carry is written last (R140). -/
def execAddReg (x y : Reg) (s : State) : Host.Outcome State Fault Refusal :=
  .next (s.resultThenFlag x (s.reg x + s.reg y) (carryFlag (s.reg x) (s.reg y)))

/-- `8xy5` SUB Vx, Vy (R141, R145). -/
def execSubReg (x y : Reg) (s : State) : Host.Outcome State Fault Refusal :=
  if vfRefused s.params.vfAlias [x, y] then .refused .vfOperand
  else .next (s.flagThenResult (greaterFlag (s.reg x) (s.reg y)) x (fun t => t.reg x - t.reg y))

/-- `8xy6` SHR Vx, Vy: `V[y]` is never read, so only `x` counts as an operand (R142, R145). -/
def execShr (x _y : Reg) (s : State) : Host.Outcome State Fault Refusal :=
  if vfRefused s.params.vfAlias [x] then .refused .vfOperand
  else .next (s.flagThenResult (shrFlag (s.reg x)) x (fun t => t.reg x >>> 1))

/-- `8xy7` SUBN Vx, Vy (R143, R145). -/
def execSubn (x y : Reg) (s : State) : Host.Outcome State Fault Refusal :=
  if vfRefused s.params.vfAlias [x, y] then .refused .vfOperand
  else .next (s.flagThenResult (greaterFlag (s.reg y) (s.reg x)) x (fun t => t.reg y - t.reg x))

/-- `8xyE` SHL Vx, Vy: `V[y]` is never read, so only `x` counts as an operand (R144, R145). -/
def execShl (x _y : Reg) (s : State) : Host.Outcome State Fault Refusal :=
  if vfRefused s.params.vfAlias [x] then .refused .vfOperand
  else .next (s.flagThenResult (shlFlag (s.reg x)) x (fun t => t.reg x <<< 1))

/-- `Cxkk` RND Vx, kk: a fresh draw, masked (R150, R151). -/
def execRnd (x : Reg) (kk : Byte) (s : State) : Host.Outcome State Fault Refusal :=
  .next (s.countDraw.setReg x (s.randomByte &&& kk))

end Sys2Proof.Machine
end

