-- ==== Sys2Proof/Machine/Display.lean ====
section
/-! DEFINITION. The display instructions (44_display.md). -/

namespace Sys2Proof.Machine

/-- `00E0` CLS (R185). -/
def execCls (s : State) : Host.Outcome State Fault Refusal := .next (s.setFb clearDisplay)

/-- The rows of `Dxyn` that are left to draw, from `row` on; `VF` is written once, after all rows. The first sprite byte
that faults ends it, with the rows already drawn kept and `VF` not written (R188). -/
def drawRows (px py : Nat) : Nat → Nat → Bool → State → State
  | 0, _, hit, s => s.setReg VF (collisionFlag hit)
  | left + 1, row, hit, s =>
    match s.memRead (s.dataBase + row) with
    | .error f => s.markFault f
    | .ok b =>
      let drawn := drawRow b px (py + row) (s.fb, hit)
      drawRows px py left (row + 1) drawn.2 (s.setFb drawn.1)

/-- `Dxyn` DRW Vx, Vy, n: the coordinates are read before `VF` is written (R188, R189). -/
def execDrw (x y : Reg) (n : Nibble) (s : State) : Host.Outcome State Fault Refusal :=
  .next (drawRows (s.reg x).toNat (s.reg y).toNat n.toNat 0 false s)

end Sys2Proof.Machine
end

