-- ==== Sys2Proof/Machine/Flow.lean ====
section
/-! DEFINITION. Control flow and skips (41_flow.md). `PC` on entry is the address of the instruction plus 2 (R94). -/

namespace Sys2Proof.Machine

/-- `00EE` RET: the slot is read at the current `SP`, then `SP` decreases (R110). -/
def execRet (s : State) : Host.Outcome State Fault Refusal :=
  match slotOf s.params.stack s.sp with
  | .error f => .next (s.markFault f)
  | .ok j => .next ((s.setPc (s.slot j)).setSp (s.sp - 1))

/-- `1nnn` JP (R111). -/
def execJp (nnn : Addr12) (s : State) : Host.Outcome State Fault Refusal := .next (s.setPc (zextAddr nnn))

/-- `2nnn` CALL: `SP` increases before the slot write, which pushes the advanced `PC` (R112). -/
def execCall (nnn : Addr12) (s : State) : Host.Outcome State Fault Refusal :=
  let s1 := s.setSp (s.sp + 1)
  match slotOf s1.params.stack s1.sp with
  | .error f => .next (s1.markFault f)
  | .ok j => .next ((s1.setSlot j s1.pc).setPc (zextAddr nnn))

/-- `3xkk` SE Vx, kk (R113). -/
def execSeImm (x : Reg) (kk : Byte) (s : State) : Host.Outcome State Fault Refusal :=
  .next (s.skipIf (decide (s.reg x = kk)))

/-- `4xkk` SNE Vx, kk (R114). -/
def execSneImm (x : Reg) (kk : Byte) (s : State) : Host.Outcome State Fault Refusal :=
  .next (s.skipIf (decide (s.reg x ≠ kk)))

/-- `5xy0` SE Vx, Vy (R115). -/
def execSeReg (x y : Reg) (s : State) : Host.Outcome State Fault Refusal :=
  .next (s.skipIf (decide (s.reg x = s.reg y)))

/-- `9xy0` SNE Vx, Vy (R116). -/
def execSneReg (x y : Reg) (s : State) : Host.Outcome State Fault Refusal :=
  .next (s.skipIf (decide (s.reg x ≠ s.reg y)))

end Sys2Proof.Machine
end

