-- ==== Sys2Proof/Machine/IndexMemory.lean ====
section
/-! DEFINITION. The index register and memory transfers (43_index_memory.md). None but the four first changes `I` (R163). -/

namespace Sys2Proof.Machine

/-- `Annn` LD I, nnn (R160). -/
def execLdI (nnn : Addr12) (s : State) : Host.Outcome State Fault Refusal := .next (s.setIdx (zextAddr nnn))

/-- `Bnnn` LD I, V0+nnn: it writes `I`, not `PC` (R161). -/
def execLdIV0 (nnn : Addr12) (s : State) : Host.Outcome State Fault Refusal :=
  .next (s.setIdx (zextAddr nnn + zextByte (s.reg 0)))

/-- `Fx1E` ADD I, Vx: modulo 65536, no flag (R162). -/
def execAddI (x : Reg) (s : State) : Host.Outcome State Fault Refusal := .next (s.setIdx (s.idx + zextByte (s.reg x)))

/-- `Fx29` LD F, Vx (R164). -/
def execLdF (x : Reg) (s : State) : Host.Outcome State Fault Refusal := .next (s.setIdx (glyphAddr (s.reg x)))

/-- `Fx33` LD B, Vx: hundreds, tens, ones, ascending (R165). -/
def execLdB (x : Reg) (s : State) : Host.Outcome State Fault Refusal :=
  .next (storeBytes (decimalDigits (s.reg x)) s.dataBase s)

/-- `Fx55` LD [I], Vx: `V0` to `Vx`, ascending (R166). -/
def execStRegs (x : Reg) (s : State) : Host.Outcome State Fault Refusal :=
  .next (storeBytes (s.regValues x) s.dataBase s)

/-- `Fx65` LD Vx, [I]: `V0` to `Vx`, ascending (R167). -/
def execLdRegs (x : Reg) (s : State) : Host.Outcome State Fault Refusal :=
  .next (loadBytes (regsUpTo x) s.dataBase s)

end Sys2Proof.Machine
end

