-- ==== Sys2Proof/Machine/Keyboard.lean ====
section
/-! DEFINITION. The key instructions (45_keyboard.md). -/

namespace Sys2Proof.Machine

/-- `Ex9E` SKP Vx (R206). -/
def execSkp (x : Reg) (s : State) : Host.Outcome State Fault Refusal := .next (s.skipIf (s.isPressed (s.reg x)))

/-- `ExA1` SKNP Vx (R207). -/
def execSknp (x : Reg) (s : State) : Host.Outcome State Fault Refusal := .next (s.skipIf (!s.isPressed (s.reg x)))

/-- `Fx0A` LD Vx, K: enter the wait; `V[x]` is written later, by the key-down event (R208). -/
def execLdVxK (x : Reg) (s : State) : Host.Outcome State Fault Refusal := .next ((s.setPaused true).setOnKeyPress x)

end Sys2Proof.Machine
end

