-- ==== Sys2Proof/Machine/Cycle.lean ====
section
/-! DEFINITION. One fetch-decode-execute cycle (R90 to R98), in the order of R97. `Step.lean` only calls it. -/

namespace Sys2Proof.Machine

/-- The timer decrement that P_TIMER_ORDER = before_fetch places before the fetch (R96). -/
def State.timersBefore (s : State) : State :=
  match s.params.timers with
  | .beforeFetch => s.decTimers
  | .afterExecute => s

/-- The end of a step: the decrement that P_TIMER_ORDER = after_execute places there, which a fault leaves out (R54, R96,
R97). -/
def State.timersAfter (s : State) : State :=
  match s.params.timers, s.faulted with
  | .afterExecute, none => s.decTimers
  | .afterExecute, some _ => s
  | .beforeFetch, _ => s

/-- Decode and execute the fetched word, `s` being the state with `PC` already advanced and `before` the state before the
step, which a `VFOperand` refusal restores with `faulted` set (R93, R95, R98, R145). -/
def runWord (w : Word) (before s : State) : Host.Outcome State Fault Refusal :=
  match decode s.params.decode w with
  | .unrecognized _ => .next s.timersAfter
  | .instr i =>
    match exec i s with
    | .next t => .next t.timersAfter
    | .refused .vfOperand => .next (before.markFault (.vfOperand w))
    | .refused r => .refused r
    | .fault f => .fault f

/-- `step()` (R97). -/
def cycle (s : State) : Host.Outcome State Fault Refusal :=
  match s.faulted, s.paused with
  | some f, _ => .fault (.faulted f)
  | none, true => .next s
  | none, false =>
    match s.timersBefore.fetch with
    | .error f => .next (s.timersBefore.markFault f)
    | .ok (hi, lo) => runWord (wordOfBytes hi lo) s s.timersBefore.advance

/-- Put a word where the next fetch reads it: the high byte at the address `PC` reaches and the low byte at the address
`PC + 1` reaches (R57, R92). A pause or a fault mark is lifted, since a step in either fetches nothing (R91, R39). -/
def State.placeWord (s : State) (w : Word) : State :=
  storeBytes [highByte w, lowByte w] s.pc.toNat
    { s with paused := false, pending := none, faulted := none }

end Sys2Proof.Machine
end

