-- ==== Sys2Proof/Machine/Step.lean ====
section
/-! DEFINITION. The step of the machine, and the state in which a given word is the next instruction. -/

namespace Sys2Proof.Machine

/-- `step()` (R90, R97). -/
def step (s : State) : Host.Outcome State Fault Refusal := cycle s

/-- `s` with the instruction whose bits are `w` stored where `step` fetches next. A program reaches memory by the host's
`loadProgram` (R262, R263); this stands for that load (log entry 15). -/
def State.withFetchWord (s : State) (nbits w : Nat) : State := s.placeWord (BitVec.ofNat 16 (w % 2 ^ nbits))

end Sys2Proof.Machine
end

