-- ==== Sys2Proof/Machine/HostOps.lean ====
section
/-! DEFINITION. The host's operations on the block (R246), each one atomic transition between steps (R245). They apply to a
paused and to a faulted state alike: only `step()` tests `paused` and `faulted` (R97; log entry 14). -/

namespace Sys2Proof.Machine

/-- Reset: the whole block to the values of R40, at first start and later; the fault mark stays (R260, R261, R39), and so
do the parameters and the count of draws, which are no state of the block. -/
def hostReset (s : State) : Host.Outcome State Fault Refusal :=
  .next { State.resetWith s.params with faulted := s.faulted, draws := s.draws }

/-- `loadProgram(bytes)`: an image longer than 3584 bytes is refused; otherwise the bytes go to 0x200 and up and nothing
else changes (R262). -/
def loadProgram (bytes : List Byte) (s : State) : Host.Outcome State Fault Refusal :=
  if imageWellFormed bytes then .next (copyImage bytes progBase s) else .refused (.programTooLong bytes.length)

/-- `onKeyDown(key)`: fire the pending wait, if any, then add the key (R204); a code above 15 is refused (R201). -/
def onKeyDown (key : Nat) (s : State) : Host.Outcome State Fault Refusal :=
  if keyWellFormed key then .next ((s.firePending (BitVec.ofNat 4 key)).addKey (BitVec.ofNat 4 key))
  else .refused (.badKeyCode key)

/-- `onKeyUp(key)`: remove the key (R205); a code above 15 is refused (R201). -/
def onKeyUp (key : Nat) (s : State) : Host.Outcome State Fault Refusal :=
  if keyWellFormed key then .next (s.removeKey (BitVec.ofNat 4 key)) else .refused (.badKeyCode key)

/-- `getDisplay()`: the grid (R184). -/
def getDisplay (s : State) : Framebuffer := s.fb

/-- One operation of the host: the block's whole transition system (R245, R246). `getDisplay` changes nothing (R184). -/
def hostApply (op : HostOp) (s : State) : Host.Outcome State Fault Refusal :=
  match op with
  | .reset => hostReset s
  | .loadProgram bytes => loadProgram bytes s
  | .step => step s
  | .onKeyDown key => onKeyDown key s
  | .onKeyUp key => onKeyUp key s
  | .getDisplay => .next s

/-- A serialized sequence of host operations, stopping at the first one that has no move (R245, R247). -/
def hostRun : List HostOp → State → Host.Outcome State Fault Refusal
  | [], s => .next s
  | op :: rest, s =>
    match hostApply op s with
    | .next t => hostRun rest t
    | .fault f => .fault f
    | .refused r => .refused r

end Sys2Proof.Machine
end

