-- ==== Sys2Proof/Safety.lean ====
section
/-! DEFINITION. The words claims are stated in: what stays the same across a step, the invariant, the parameters under which
nothing faults, what a running, waiting or ended state is, and the reference forms of stores, sprites and nested calls. -/

namespace Sys2Proof

/-- The parameter values under which no model fault can arise (R13, R237); the defaults are among them. -/
def Params.NoFaults (p : Params) : Prop := p.oob ≠ .fault ∧ p.stack = .mod16 ∧ p.vfAlias = .sequential

end Sys2Proof

namespace Sys2Proof.Machine

/-! ### Frames -/

/-- The pieces of state, by name (10_state.md section 1). -/
inductive Part where
  | mem | v | idx | pc | sp | stack | dt | st | paused | fb | pressed | pending | faulted | draws | params
  deriving DecidableEq, Repr

/-- A piece of state reads the same in two states: every byte, register, slot and pixel, or the value itself. -/
def Same (s t : State) : Part → Prop
  | .mem => ∀ a, t.byteAt a = s.byteAt a
  | .v => ∀ r, t.reg r = s.reg r
  | .idx => t.idx = s.idx
  | .pc => t.pc = s.pc
  | .sp => t.sp = s.sp
  | .stack => ∀ j, t.slot j = s.slot j
  | .dt => t.dt = s.dt
  | .st => t.st = s.st
  | .paused => t.paused = s.paused
  | .fb => ∀ c r, pixel t.fb c r = pixel s.fb c r
  | .pressed => t.pressed = s.pressed
  | .pending => t.pending = s.pending
  | .faulted => t.faulted = s.faulted
  | .draws => t.draws = s.draws
  | .params => t.params = s.params

/-- Only the named pieces may differ. -/
def Frame (s t : State) (changed : List Part) : Prop := ∀ p, p ∉ changed → Same s t p

/-- Only the named registers may differ. -/
def RegFrame (s t : State) (dests : List Reg) : Prop := ∀ r, r ∉ dests → t.reg r = s.reg r

/-! ### The invariant -/

/-- Memory is in its canonical form, and the block waits exactly when a register is pending (R33). -/
def State.Inv (s : State) : Prop :=
  memWf s.params.font s.mem = true ∧ (s.paused = true ↔ s.pending ≠ none)

/-! ### Running, waiting, ended (R97, R209, R249) -/

/-- A step from here fetches: not faulted, not paused (R97). -/
def State.Running (s : State) : Prop := s.faulted = none ∧ s.paused = false

/-- The word the next step fetches is `w` (R92). -/
def State.Fetches (s : State) (w : Word) : Prop := ∃ hi lo, s.fetch = .ok (hi, lo) ∧ w = wordOfBytes hi lo

/-- The next step executes `i` (R93, R95). -/
def State.AboutToRun (s : State) (i : Instr) : Prop :=
  s.Running ∧ ∃ w, s.Fetches w ∧ decode s.params.decode w = .instr i

/-- A run has ended at `nnn`: `PC` there, not paused, not faulted, and the word there a jump to itself (R249). -/
def State.EndedAt (s : State) (nnn : Addr12) : Prop :=
  s.Running ∧ s.pc = zextAddr nnn ∧ s.Fetches (encode (.jp nnn))

/-- The block decodes a word to an instruction in both modes. -/
def DecodesTo (w : Word) (i : Instr) : Prop := ∀ m, decode m w = .instr i

/-! ### Memory transfers -/

/-- No access to `len` bytes from `base` faults under the policy: only P_OOB = fault can, above 0xFFF (R53). -/
def InReach (p : OobPolicy) (base len : Nat) : Prop := p = .fault → len = 0 ∨ base + len ≤ memSize

/-- `t` has the bytes `byte 0`, `byte 1`, … of a store of `len` bytes from `base`, each at the address its access reaches;
where two accesses reach one address the later wins, and every address no access reaches reads as in `s` (R53, R165, R166). -/
def StoredFrom (s t : State) (base len : Nat) (byte : Nat → Byte) : Prop :=
  (∀ k e, k < len → eff s.params.oob (base + k) = .ok e →
    (∀ j, k < j → j < len → eff s.params.oob (base + j) ≠ .ok e) → t.byteAt e = byte k) ∧
  (∀ e, (∀ k, k < len → eff s.params.oob (base + k) ≠ .ok e) → t.byteAt e = s.byteAt e)

/-- `b` is what a read of address `a` gives after that store into `s`: the last stored byte whose access reaches what `a`
reaches, or what `a` read in `s` where no access of the store reaches it (R61, R64). -/
def ReadsStored (s : State) (base len : Nat) (byte : Nat → Byte) (a : Nat) (b : Byte) : Prop :=
  (∀ k, k < len → eff s.params.oob (base + k) = eff s.params.oob a →
    (∀ j, k < j → j < len → eff s.params.oob (base + j) ≠ eff s.params.oob a) → b = byte k) ∧
  ((∀ k, k < len → eff s.params.oob (base + k) ≠ eff s.params.oob a) → s.memRead a = .ok b)

/-- The fetch at `p` in `t` reads two bytes that are what that store into `s` leaves at `p` and `p + 1` (R64, R92). -/
def FetchSeesStored (s t : State) (base len : Nat) (byte : Nat → Byte) (p : Word) : Prop :=
  ∃ hi lo, (t.setPc p).fetch = .ok (hi, lo) ∧ ReadsStored s base len byte p.toNat hi ∧
    ReadsStored s base len byte (p.toNat + 1) lo

/-! ### `VF` as an operand -/

/-- The instruction is in the table of R145: SUB or SUBN with `VF` on either side, SHR or SHL with `VF` on the left. -/
def UsesVfAsOperand (i : Instr) : Prop :=
  (∃ x y, (i = .subReg x y ∨ i = .subn x y) ∧ (x = VF ∨ y = VF)) ∨ (∃ y, i = .shr VF y ∨ i = .shl VF y)

/-! ### Sprites -/

/-- The sprite of `Dxyn` covers `(c, r)` with a 1 bit: some row and column of it, read at `I + row`, most significant bit
first, lands there modulo the width and the height (R188, R189). -/
def SpriteLit (s : State) (x y : Reg) (n : Nibble) (c r : Nat) : Prop :=
  ∃ row col b, row < n.toNat ∧ col < 8 ∧ s.memRead (s.idx.toNat + row) = .ok b ∧ b.getLsbD (7 - col) = true ∧
    ((s.reg x).toNat + col) % dispW = c ∧ ((s.reg y).toNat + row) % dispH = r

/-- The framebuffer of `t` is that of `s` XOR the sprite (R190). -/
def XoredBySprite (s t : State) (x y : Reg) (n : Nibble) : Prop :=
  ∀ c r, c < dispW → r < dispH →
    (SpriteLit s x y n c r → pixel t.fb c r = !pixel s.fb c r) ∧
    (¬ SpriteLit s x y n c r → pixel t.fb c r = pixel s.fb c r)

/-- The sprite and the old framebuffer share a lit pixel (R190). -/
def Collides (s : State) (x y : Reg) (n : Nibble) : Prop :=
  ∃ c r, c < dispW ∧ r < dispH ∧ SpriteLit s x y n c r ∧ pixel s.fb c r = true

/-! ### Nested calls (R118) -/

/-- Calls one inside the other, each from an address whose advanced `PC` is given, with nothing between them. -/
def nestCalls : List (Word × Addr12) → State → Host.Outcome State Fault Refusal
  | [], s => .next s
  | c :: rest, s =>
    match exec (.call c.2) (s.setPc c.1) with
    | .next t => nestCalls rest t
    | .fault f => .fault f
    | .refused r => .refused r

/-- Where each of `k` returns in a row leads. -/
def returnAddresses : Nat → State → List Word
  | 0, _ => []
  | k + 1, s =>
    match exec .ret s with
    | .next t => t.pc :: returnAddresses k t
    | .fault _ => []
    | .refused _ => []

/-! ### The two timer orders (D4) -/

/-- The same machine under P_TIMER_ORDER = after_execute, seen one decrement later. -/
def State.afterOrder (s : State) : State :=
  { s.decTimers with params := { s.params with timers := .afterExecute } }

end Sys2Proof.Machine
end

