-- ==== Sys2Proof/Certificates/Slice0/Obligations.lean ====
section
/-! DEFINITION. The statements for the provers, in the order of the spec's files: reset and memory, encoding, the step,
whole-machine rules, then family by family. A statement about an instruction gives its encoding, its effect and its frame. -/

open Sys2Proof Sys2Proof.Machine

/-! ### Reset (10_state.md, 70_reset_and_hazards.md) -/

/-- 10_state.md section 7 (R40): after reset, under any parameters, every piece of state holds the value of the table. The
dark screen, the empty key set and the empty wait are the spec's own choices (D7, D8; log entry 8), FONT is a parameter (log
entry 6), and the count of draws is the model's own field (log entry 7) and is not stated. -/
def Obligations.ResetStateHoldsTheTableOfValues : Prop :=
  core.reset = State.resetWith Params.default ∧ ∀ p : Params, (State.resetWith p).params = p ∧
    (∀ a, (h : a < 80) → (State.resetWith p).byteAt a = p.font[a]) ∧
    (∀ a, 80 ≤ a → (State.resetWith p).byteAt a = 0) ∧
    (∀ r, (State.resetWith p).reg r = 0) ∧ (State.resetWith p).idx = 0 ∧ (State.resetWith p).pc = 0x200 ∧
    (State.resetWith p).sp = 0 ∧ (∀ j, (State.resetWith p).slot j = 0) ∧
    (State.resetWith p).dt = 0 ∧ (State.resetWith p).st = 0 ∧ (State.resetWith p).paused = false ∧
    (∀ c r, pixel (State.resetWith p).fb c r = false) ∧ (∀ k, (State.resetWith p).isPressed k = false) ∧
    (State.resetWith p).pending = none ∧ (State.resetWith p).faulted = none

/-- 70_reset_and_hazards.md section 1 (R260, R261, decisions D7 to D9) and 10_state.md section 6 (R39): re-initialization
from any state, also a waiting one, gives the block the values of a fresh reset, keeps the parameters, and does not clear
the fault mark; the count of draws is the model's own field (log entry 7). -/
def Obligations.HostResetReinitializesTheWholeBlock : Prop :=
  ∀ s : State, ∃ t, hostApply .reset s = .next t ∧ t.faulted = s.faulted ∧
    Frame (State.resetWith s.params) t [.faulted, .draws]

/-! ### Memory (20_memory.md) -/

/-- 20_memory.md section 2 (R53, decision D1): the address an access reaches under each policy, from an exact address. -/
def Obligations.EffectiveAddressFollowsThePolicy : Prop :=
  ∀ a : Nat, eff .wrap a = .ok (a % 4096) ∧ eff .clamp a = .ok (min a 4095) ∧
    (a ≤ 0xFFF → eff .fault a = .ok a) ∧ (0xFFF < a → eff .fault a = .error (.outOfRange a))

/-- 20_memory.md section 4 (R61, decision D20): a read gives the byte of the latest write to the same effective address, and
a write leaves every other effective address as it was. -/
def Obligations.ReadGivesTheLatestWrite : Prop :=
  ∀ (s t : State) (a : Nat) (b : Byte), s.memWrite a b = .ok t →
    (∀ c e, eff s.params.oob a = .ok e → eff s.params.oob c = .ok e → t.memRead c = .ok b) ∧
    (∀ c e e', eff s.params.oob a = .ok e → eff s.params.oob c = .ok e' → e' ≠ e → t.memRead c = s.memRead c) ∧
    Frame s t [.mem]

/-- 20_memory.md section 3 (R57, R59) and 40_engine_step.md (R92): the fetch reads the addresses that `PC` and `PC + 1`
reach, at any `PC`, odd or even, under wrap and clamp, and under fault wherever both lie in range; and the byte at the lower
one is the high byte of the opcode. -/
def Obligations.FetchReadsTwoBytesHighFirst : Prop :=
  ∀ (s : State) (hi lo : Byte), InReach s.params.oob s.pc.toNat 2 →
    (∃ e e', eff s.params.oob s.pc.toNat = .ok e ∧ eff s.params.oob (s.pc.toNat + 1) = .ok e' ∧
      s.fetch = .ok (s.byteAt e, s.byteAt e')) ∧
    (wordOfBytes hi lo).toNat = hi.toNat * 256 + lo.toNat

/-! ### Encoding (30_encoding.md) -/

/-- 30_encoding.md sections 1 and 2 (R71, R72, R75): decoding the word of an instruction gives it back, in both modes, with
every operand at every value. -/
def Obligations.DecodeOfEncodeIsTheInstruction : Prop :=
  ∀ (m : DecodeMode) (i : Instr), i.wellFormed = true → decode m (encode i) = .instr i

/-- 30_encoding.md section 2 (R75, R76): under strict decoding every instruction has exactly one word, so a word that
decodes to it is its encoding. -/
def Obligations.StrictDecodingLosesNoBit : Prop :=
  ∀ (w : Word) (i : Instr), decode .strict w = .instr i ↔ w = encode i

/-- R75: under strict decoding a word is an instruction exactly when it matches the match and mask of a row, it is then that
row's instruction, and no word matches two rows. -/
def Obligations.StrictDecodingIsTheOpcodeMap : Prop :=
  ∀ w : Word,
    (∀ i, w &&& rowMask .strict i = rowMatch i → ∃ j, decode .strict w = .instr j ∧ rowMatch j = rowMatch i) ∧
    (∀ i, decode .strict w = .instr i → w &&& rowMask .strict i = rowMatch i) ∧
    (∀ i j, w &&& rowMask .strict i = rowMatch i → w &&& rowMask .strict j = rowMatch j → rowMatch i = rowMatch j)

/-- 30_encoding.md section 2 (R77, R78, decision D3): the two modes disagree exactly on `0XE0` and `0XEE` with a nonzero X,
`5xyn` and `9xyn` with a nonzero n; there strict decoding recognizes nothing and keyed decoding gives CLS, RET, SE, SNE. -/
def Obligations.DecodeModesDisagreeOnlyOnFixedDigits : Prop :=
  ∀ w : Word,
    (decode .strict w ≠ decode .keyed w ↔
      (fieldOp w = 0 ∧ fieldX w ≠ 0 ∧ (fieldKk w = 0xE0 ∨ fieldKk w = 0xEE)) ∨
      (fieldOp w = 5 ∧ fieldN w ≠ 0) ∨ (fieldOp w = 9 ∧ fieldN w ≠ 0)) ∧
    (decode .strict w ≠ decode .keyed w → decode .strict w = .unrecognized w ∧
      decode .keyed w = .instr
        (if fieldOp w = 0 then (if fieldKk w = 0xE0 then .cls else .ret)
          else if fieldOp w = 5 then .seReg (fieldX w) (fieldY w) else .sneReg (fieldX w) (fieldY w)))

/-- 30_encoding.md section 3 (R79, R80): the unrecognized words under strict decoding are exactly those of the table. -/
def Obligations.UnrecognizedWordsAreTheListedOnes : Prop :=
  ∀ w : Word, decode .strict w = .unrecognized w ↔
    (fieldOp w = 0 ∧ w ≠ 0x00E0 ∧ w ≠ 0x00EE) ∨
    (fieldOp w = 5 ∧ fieldN w ≠ 0) ∨
    (fieldOp w = 8 ∧ fieldN w ∈ [8, 9, 0xA, 0xB, 0xC, 0xD, 0xF]) ∨
    (fieldOp w = 9 ∧ fieldN w ≠ 0) ∨
    (fieldOp w = 0xE ∧ fieldKk w ∉ [0x9E, 0xA1]) ∨
    (fieldOp w = 0xF ∧ fieldKk w ∉ [0x07, 0x0A, 0x15, 0x18, 0x1E, 0x29, 0x33, 0x55, 0x65])

/-- 30_encoding.md section 2 (R75): some words of the map, written out, one or more of every group. -/
def Obligations.SampleWordsDecodeAsTheMapSays : Prop :=
  DecodesTo 0x00E0 .cls ∧ DecodesTo 0x00EE .ret ∧ DecodesTo 0x1234 (.jp 0x234) ∧ DecodesTo 0x2210 (.call 0x210) ∧
    DecodesTo 0x3342 (.seImm 3 0x42) ∧ DecodesTo 0x5120 (.seReg 1 2) ∧ DecodesTo 0x60FE (.ldImm 0 0xFE) ∧
    DecodesTo 0x8125 (.subReg 1 2) ∧ DecodesTo 0x805E (.shl 0 5) ∧ DecodesTo 0xB300 (.ldIV0 0x300) ∧
    DecodesTo 0xC30F (.rnd 3 0x0F) ∧ DecodesTo 0xD125 (.drw 1 2 5) ∧ DecodesTo 0xE5A1 (.sknp 5) ∧
    DecodesTo 0xF50A (.ldVxK 5) ∧ DecodesTo 0xF265 (.ldRegs 2)

/-! ### The step (40_engine_step.md) -/

/-- 40_engine_step.md (R93 to R97, decisions D2, D4, D5): a step of a running block whose fetched word decodes to an
instruction is `exec` of it on the state with `PC` advanced by 2, with the timer decrement before the fetch or after execute
by P_TIMER_ORDER; a fault inside it leaves out the decrement after execute, and a `VFOperand` refusal leaves the state
before the step, with the fault mark. That the mark is a next state, and that `exec` answers a refusal that the step turns
into it, is the model's form (log entries 10 and 11). -/
def Obligations.StepRunsTheDecodedInstruction : Prop :=
  ∀ (s : State) (w : Word) (i : Instr), s.Running → s.Fetches w → decode s.params.decode w = .instr i →
    (∀ t, s.params.timers = .afterExecute → exec i (s.setPc (s.pc + 2)) = .next t → t.faulted = none →
      step s = .next t.decTimers) ∧
    (∀ t f, s.params.timers = .afterExecute → exec i (s.setPc (s.pc + 2)) = .next t → t.faulted = some f →
      step s = .next t) ∧
    (∀ t, s.params.timers = .beforeFetch → exec i (s.decTimers.setPc (s.pc + 2)) = .next t → step s = .next t) ∧
    (exec i (s.timersBefore.setPc (s.pc + 2)) = .refused .vfOperand → step s = .next (s.markFault (.vfOperand w)))

/-- R91: a step while paused changes nothing, however often it is called; and of the operations of the host on a paused
block, only a key-down (or reset, R29) clears `paused`. -/
def Obligations.PausedStepChangesNothing : Prop :=
  ∀ s : State, s.paused = true →
    (s.faulted = none → step s = .next s ∧ ∀ n, core.run n s = .next s) ∧
    (∀ op t, hostApply op s = .next t → t.paused = false → op = .reset ∨ ∃ k, op = .onKeyDown k)

/-- R98: a step on an unrecognized word advances `PC` by 2 and decrements the timers, in both timer orders, and changes
nothing else. -/
def Obligations.UnrecognizedWordIsANoOp : Prop :=
  ∀ (s : State) (w : Word), s.Running → s.Fetches w → decode s.params.decode w = .unrecognized w →
    ∃ t, step s = .next t ∧ t.pc = s.pc + 2 ∧ t.dt.toNat = s.dt.toNat - 1 ∧ t.st.toNat = s.st.toNat - 1 ∧
      Frame s t [.pc, .dt, .st]

/-- 20_memory.md section 2 (R54, decision D1) and 40_engine_step.md (R97): under P_OOB = fault, a fetch whose first or
second byte lies above 0xFFF faults at that address, with `PC` and everything else as before the fetch; only the decrement
of before_fetch has already happened. That the mark is a next state is the model's form (log entry 10). -/
def Obligations.FetchFaultLeavesTheProgramCounter : Prop :=
  ∀ s : State, s.Running → s.params.oob = .fault → 0xFFF ≤ s.pc.toNat →
    ∃ t, step s = .next t ∧ t.faulted = some (.outOfRange (max s.pc.toNat 0x1000)) ∧
      (s.params.timers = .afterExecute → Frame s t [.faulted]) ∧
      (s.params.timers = .beforeFetch → Frame s.decTimers t [.faulted])

/-- 10_state.md section 6 (R39) and 40_engine_step.md (R97): a faulted state takes no step, and no operation of the host
clears or changes the mark. That the step answers a fault, and that the host's operations apply to a faulted state, is the
model's reading (log entries 10 and 14). -/
def Obligations.FaultedStateTakesNoStep : Prop :=
  ∀ (s : State) (f : ModelFault), s.faulted = some f →
    step s = .fault (.faulted f) ∧ ∀ op t, hostApply op s = .next t → t.faulted = some f

/-! ### Whole-machine rules -/

/-- 60_exceptions.md section 1 (R230), with the parameters at values under which R237 names no model fault (the defaults are
such): every one of the 65536 words executes to completion in one step, and none raises anything. -/
def Obligations.EveryWordExecutesToCompletion : Prop :=
  ∀ s : State, s.params.NoFaults → s.faulted = none → ∃ t, step s = .next t ∧ t.faulted = none

/-- 41_flow.md (R117): what an instruction makes of `PC`, which on entry is the address of the next instruction. Only the
six skips add 2, only JP, CALL and RET jump, and `Bnnn` does not. -/
def Obligations.OnlySkipsJumpsCallsReturnsMoveThePc : Prop :=
  ∀ (i : Instr) (s t : State), exec i s = .next t →
    match i with
    | .seImm _ _ | .sneImm _ _ | .seReg _ _ | .sneReg _ _ | .skp _ | .sknp _ => t.pc = s.pc ∨ t.pc = s.pc + 2
    | .jp nnn => t.pc = nnn.setWidth 16
    | .call nnn => t.pc = nnn.setWidth 16 ∨ (s.params.stack = .fault ∧ t.pc = s.pc)
    | .ret => (∃ j, t.pc = s.slot j) ∨ (s.params.stack = .fault ∧ t.pc = s.pc)
    | _ => t.pc = s.pc

/-- 43_index_memory.md section 1 (R163, decision D6) and 10_state.md section 3 (R23): `I` is written by `Annn`, `Bnnn`,
`Fx1E` and `Fx29` alone. -/
def Obligations.OnlyFourInstructionsWriteTheIndex : Prop :=
  ∀ (i : Instr) (s t : State), exec i s = .next t → t.idx ≠ s.idx →
    (∃ nnn, i = .ldI nnn) ∨ (∃ nnn, i = .ldIV0 nnn) ∨ (∃ x, i = .addI x) ∨ (∃ x, i = .ldF x)

/-- 10_state.md section 3 (R25, R26): only `2nnn` and `00EE` change `SP`, and only `2nnn` writes a slot. -/
def Obligations.OnlyCallAndReturnUseTheStack : Prop :=
  ∀ (i : Instr) (s t : State), exec i s = .next t →
    (t.sp ≠ s.sp → i = .ret ∨ ∃ nnn, i = .call nnn) ∧
    ((∃ j, t.slot j ≠ s.slot j) → ∃ nnn, i = .call nnn)

/-- 40_engine_step.md (R100): a step touches the Display only by `00E0` and `Dxyn` and the pause and wait only by `Fx0A`; it
never changes `pressed` and never fires `pending`. -/
def Obligations.StepsTouchDisplayAndKeyboardOnlyByTheirInstructions : Prop :=
  (∀ (i : Instr) (s t : State), exec i s = .next t →
    ((∃ c r, pixel t.fb c r ≠ pixel s.fb c r) → i = .cls ∨ ∃ x y n, i = .drw x y n) ∧
    (t.pending ≠ s.pending ∨ t.paused ≠ s.paused → ∃ x, i = .ldVxK x)) ∧
  (∀ s t : State, step s = .next t → t.pressed = s.pressed ∧ (t.pending = none → s.pending = none))

/-- 46_timers.md (R220), 40_engine_step.md (R91, R96): every step of a running block that ends without a fault and does not
set a timer decrements both timers by one, stopping at 0; a paused step leaves them. -/
def Obligations.TimersCountUnpausedSteps : Prop :=
  ∀ s t : State, step s = .next t → t.faulted = none →
    (s.paused = true → t.dt = s.dt ∧ t.st = s.st) ∧
    (s.paused = false → (∀ x, ¬ s.AboutToRun (.ldDTVx x)) → t.dt.toNat = s.dt.toNat - 1) ∧
    (s.paused = false → (∀ x, ¬ s.AboutToRun (.ldSTVx x)) → t.st.toNat = s.st.toNat - 1)

/-- 92_eei_decisions.md D4, 46_timers.md (R221): a program cannot tell the two timer orders apart. The run under
before_fetch and the run under after_execute, started one decrement later, stay in step for any number of steps: they agree
on everything but the timers, which stay one decrement apart. -/
def Obligations.ProgramsCannotTellTheTimerOrdersApart : Prop :=
  ∀ (n : Nat) (s t : State), s.params.NoFaults → s.params.timers = .beforeFetch → s.faulted = none →
    core.run n s = .next t → core.run n s.afterOrder = .next t.afterOrder

/-- 60_exceptions.md section 4 (R249, decision D16): from a run that has ended at an address, any number of steps leaves
everything but the timers, which count down to 0, and the run stays ended there. -/
def Obligations.EndedRunChangesOnlyTheTimers : Prop :=
  ∀ (n : Nat) (s : State) (nnn : Addr12), s.EndedAt nnn →
    ∃ t, core.run n s = .next t ∧ t.EndedAt nnn ∧ Frame s t [.dt, .st] ∧
      t.dt.toNat = s.dt.toNat - n ∧ t.st.toNat = s.st.toNat - n

/-- 10_state.md section 5 (R33) for the half on `paused` and `pending`; the half on the canonical form of the memory list is
the model's own (log entry 12): the invariant holds after reset under any parameters, the defaults among them. -/
def Obligations.ResetMeetsTheInvariant : Prop := State.reset.Inv ∧ ∀ p, (State.resetWith p).Inv

/-- 10_state.md section 5 (R33) for the half on `paused` and `pending`; the half on the canonical form of the memory list is
the model's own (log entry 12): every step keeps the invariant. -/
def Obligations.EveryStepKeepsTheInvariant : Prop := ∀ s t : State, s.Inv → step s = .next t → t.Inv

/-- 10_state.md section 5 (R33): "in every state reachable from reset by the operations of this spec" the block is paused
exactly when a register is pending. The other half of the invariant, the canonical form of the memory list, is the model's
own (log entry 12), and so is that the parameters are a part of the state, which no operation changes (R7; log entry 1). -/
def Obligations.EveryHostSequenceKeepsTheInvariant : Prop :=
  (∀ (ops : List HostOp) (s t : State), s.Inv → hostRun ops s = .next t → t.Inv ∧ t.params = s.params) ∧
  (∀ (ops : List HostOp) (p : Params) (t : State), hostRun ops (State.resetWith p) = .next t → t.Inv)

/-! ### Control flow (41_flow.md) -/

/-- R111: JP loads `PC` with the zero-extended address and changes nothing else. -/
def Obligations.JumpLoadsThePc : Prop :=
  ∀ (s : State) (nnn : Addr12), DecodesTo (0x1000 ||| nnn.setWidth 16) (.jp nnn) ∧
    ∃ t, exec (.jp nnn) s = .next t ∧ t.pc.toNat = nnn.toNat ∧ Frame s t [.pc]

/-- 41_flow.md (R112, decision D2): CALL increments `SP`, writes the advanced `PC` into the slot of the new `SP` and jumps;
under P_STACK = fault it faults when the incremented `SP` is 16 or more, with `SP` incremented and no slot written (the
mark's form: log entry 10). -/
def Obligations.CallPushesTheReturnAddress : Prop :=
  ∀ (s : State) (nnn : Addr12), DecodesTo (0x2000 ||| nnn.setWidth 16) (.call nnn) ∧
    ((s.params.stack = .mod16 ∨ (s.sp + 1).toNat < 16) →
      ∃ t j, exec (.call nnn) s = .next t ∧ t.sp.toNat = (s.sp.toNat + 1) % 256 ∧ j.val = (s.sp.toNat + 1) % 256 % 16 ∧
        t.slot j = s.pc ∧ (∀ k, k ≠ j → t.slot k = s.slot k) ∧ t.pc = nnn.setWidth 16 ∧ Frame s t [.sp, .stack, .pc]) ∧
    (s.params.stack = .fault → 16 ≤ (s.sp + 1).toNat →
      ∃ t, exec (.call nnn) s = .next t ∧ t.sp = s.sp + 1 ∧ t.faulted = some (.stackOutOfRange (s.sp + 1)) ∧
        Frame s t [.sp, .faulted])

/-- 41_flow.md (R110, decision D2): RET reads the slot at the current `SP`, then decrements `SP` modulo 256; under P_STACK =
fault it faults when `SP` is 16 or more, before any write (the mark's form: log entry 10). Its word is `00EE`, under keyed
decoding `0XEE` for any X. -/
def Obligations.ReturnPopsTheSlotAtSp : Prop :=
  ∀ (s : State) (x : Reg), DecodesTo 0x00EE .ret ∧ decode .keyed ((x.setWidth 16 <<< 8) ||| 0x00EE) = .instr .ret ∧
    ((s.params.stack = .mod16 ∨ s.sp.toNat < 16) →
      ∃ t j, exec .ret s = .next t ∧ j.val = s.sp.toNat % 16 ∧ t.pc = s.slot j ∧
        t.sp.toNat = (s.sp.toNat + 255) % 256 ∧ Frame s t [.sp, .pc]) ∧
    (s.params.stack = .fault → 16 ≤ s.sp.toNat →
      ∃ t, exec .ret s = .next t ∧ t.faulted = some (.stackOutOfRange s.sp) ∧ Frame s t [.faulted])

/-- 41_flow.md (R118, decision D2): under P_STACK = mod16, up to 16 nested calls return to their callers in reverse order,
from any `SP`; with 17, the first call's return address is gone and the last return leads where the 17th call would. -/
def Obligations.SixteenNestedCallsReturn : Prop :=
  ∀ (calls : List (Word × Addr12)) (s t : State), s.params.stack = .mod16 → nestCalls calls s = .next t →
    (calls.length ≤ 16 → returnAddresses calls.length t = (calls.map (·.1)).reverse) ∧
    (calls.length = 17 → (returnAddresses 17 t).getLast? = calls.getLast?.map (·.1))

/-- R113, R114: SE and SNE with an immediate add 2 to `PC` modulo 65536 when the register equals, or differs from, the
immediate, and change nothing else. -/
def Obligations.ImmediateSkipsCompare : Prop :=
  ∀ (s : State) (x : Reg) (kk : Byte),
    DecodesTo (0x3000 ||| (x.setWidth 16 <<< 8) ||| kk.setWidth 16) (.seImm x kk) ∧
    DecodesTo (0x4000 ||| (x.setWidth 16 <<< 8) ||| kk.setWidth 16) (.sneImm x kk) ∧
    (∃ t, exec (.seImm x kk) s = .next t ∧ Frame s t [.pc] ∧
      t.pc.toNat = if s.reg x = kk then (s.pc.toNat + 2) % 65536 else s.pc.toNat) ∧
    (∃ t, exec (.sneImm x kk) s = .next t ∧ Frame s t [.pc] ∧
      t.pc.toNat = if s.reg x = kk then s.pc.toNat else (s.pc.toNat + 2) % 65536)

/-- 41_flow.md (R115, R116, decision D3): SE and SNE on two registers; with x = y the first always skips and the second
never. Under strict decoding only a last digit of 0 is the instruction, under keyed any. -/
def Obligations.RegisterSkipsCompare : Prop :=
  ∀ (s : State) (x y : Reg) (n : Nibble),
    (decode .strict (0x5000 ||| (x.setWidth 16 <<< 8) ||| (y.setWidth 16 <<< 4) ||| n.setWidth 16) = .instr (.seReg x y)
      ↔ n = 0) ∧
    (decode .strict (0x9000 ||| (x.setWidth 16 <<< 8) ||| (y.setWidth 16 <<< 4) ||| n.setWidth 16) = .instr (.sneReg x y)
      ↔ n = 0) ∧
    decode .keyed (0x5000 ||| (x.setWidth 16 <<< 8) ||| (y.setWidth 16 <<< 4) ||| n.setWidth 16) = .instr (.seReg x y) ∧
    decode .keyed (0x9000 ||| (x.setWidth 16 <<< 8) ||| (y.setWidth 16 <<< 4) ||| n.setWidth 16) = .instr (.sneReg x y) ∧
    (∃ t, exec (.seReg x y) s = .next t ∧ Frame s t [.pc] ∧
      t.pc.toNat = if s.reg x = s.reg y then (s.pc.toNat + 2) % 65536 else s.pc.toNat) ∧
    (∃ t, exec (.sneReg x y) s = .next t ∧ Frame s t [.pc] ∧
      t.pc.toNat = if s.reg x = s.reg y then s.pc.toNat else (s.pc.toNat + 2) % 65536)

/-! ### Register arithmetic and logic (42_alu.md) -/

/-- R130, R131: load and add of an immediate; the sum is taken modulo 256 and records no carry, so that `VF` changes only as
the destination. -/
def Obligations.ImmediateLoadAndAdd : Prop :=
  ∀ (s : State) (x : Reg) (kk : Byte),
    DecodesTo (0x6000 ||| (x.setWidth 16 <<< 8) ||| kk.setWidth 16) (.ldImm x kk) ∧
    DecodesTo (0x7000 ||| (x.setWidth 16 <<< 8) ||| kk.setWidth 16) (.addImm x kk) ∧
    (∃ t, exec (.ldImm x kk) s = .next t ∧ t.reg x = kk ∧ RegFrame s t [x] ∧ Frame s t [.v]) ∧
    (∃ t, exec (.addImm x kk) s = .next t ∧ (t.reg x).toNat = ((s.reg x).toNat + kk.toNat) % 256 ∧ RegFrame s t [x] ∧
      Frame s t [.v])

/-- R132 to R135: copy, OR, AND, XOR, bit by bit; `VF` is not reset and changes only as the destination. -/
def Obligations.RegisterCopyAndLogic : Prop :=
  ∀ (s : State) (x y : Reg),
    DecodesTo (0x8000 ||| (x.setWidth 16 <<< 8) ||| (y.setWidth 16 <<< 4)) (.ldReg x y) ∧
    DecodesTo (0x8001 ||| (x.setWidth 16 <<< 8) ||| (y.setWidth 16 <<< 4)) (.orReg x y) ∧
    DecodesTo (0x8002 ||| (x.setWidth 16 <<< 8) ||| (y.setWidth 16 <<< 4)) (.andReg x y) ∧
    DecodesTo (0x8003 ||| (x.setWidth 16 <<< 8) ||| (y.setWidth 16 <<< 4)) (.xorReg x y) ∧
    (∃ t, exec (.ldReg x y) s = .next t ∧ t.reg x = s.reg y ∧ RegFrame s t [x] ∧ Frame s t [.v]) ∧
    (∃ t, exec (.orReg x y) s = .next t ∧ RegFrame s t [x] ∧ Frame s t [.v] ∧
      ∀ k, (t.reg x).getLsbD k = ((s.reg x).getLsbD k || (s.reg y).getLsbD k)) ∧
    (∃ t, exec (.andReg x y) s = .next t ∧ RegFrame s t [x] ∧ Frame s t [.v] ∧
      ∀ k, (t.reg x).getLsbD k = ((s.reg x).getLsbD k && (s.reg y).getLsbD k)) ∧
    (∃ t, exec (.xorReg x y) s = .next t ∧ RegFrame s t [x] ∧ Frame s t [.v] ∧
      ∀ k, (t.reg x).getLsbD k = ((s.reg x).getLsbD k ^^ (s.reg y).getLsbD k))

/-- R140: the sum modulo 256 and the carry of the exact sum, both of the old values; the carry is written last, so that with
x = 15 it is the one that stays. -/
def Obligations.AddSetsTheCarry : Prop :=
  ∀ (s : State) (x y : Reg),
    DecodesTo (0x8004 ||| (x.setWidth 16 <<< 8) ||| (y.setWidth 16 <<< 4)) (.addReg x y) ∧
    ∃ t, exec (.addReg x y) s = .next t ∧
      (x ≠ VF → (t.reg x).toNat = ((s.reg x).toNat + (s.reg y).toNat) % 256) ∧
      (t.reg VF).toNat = (if (s.reg x).toNat + (s.reg y).toNat > 255 then 1 else 0) ∧
      RegFrame s t [x, VF] ∧ Frame s t [.v]

/-- 42_alu.md section 3 (R141, R143): SUB and SUBN with neither operand `VF`: the difference modulo 256, and `VF` 1 exactly
when the minuend is strictly larger, so that equal operands give 0 and 0. The operands at `VF` are another statement. -/
def Obligations.SubtractSetsTheStrictFlag : Prop :=
  ∀ (s : State) (x y : Reg),
    DecodesTo (0x8005 ||| (x.setWidth 16 <<< 8) ||| (y.setWidth 16 <<< 4)) (.subReg x y) ∧
    DecodesTo (0x8007 ||| (x.setWidth 16 <<< 8) ||| (y.setWidth 16 <<< 4)) (.subn x y) ∧
    (x ≠ VF → y ≠ VF →
      (∃ t, exec (.subReg x y) s = .next t ∧ (t.reg x).toNat = ((s.reg x).toNat + 256 - (s.reg y).toNat) % 256 ∧
        (t.reg VF).toNat = (if (s.reg x).toNat > (s.reg y).toNat then 1 else 0) ∧
        RegFrame s t [x, VF] ∧ Frame s t [.v]) ∧
      (∃ t, exec (.subn x y) s = .next t ∧ (t.reg x).toNat = ((s.reg y).toNat + 256 - (s.reg x).toNat) % 256 ∧
        (t.reg VF).toNat = (if (s.reg y).toNat > (s.reg x).toNat then 1 else 0) ∧
        RegFrame s t [x, VF] ∧ Frame s t [.v]))

/-- R142, R144: SHR and SHL by one with x other than 15, for every y, which is never read: `VF` is the bit shifted out, 0 or
1 for SHR and raw, 0 or 0x80, for SHL. The operand `VF` is another statement. -/
def Obligations.ShiftsByOneSetTheBitShiftedOut : Prop :=
  ∀ (s : State) (x y : Reg),
    DecodesTo (0x8006 ||| (x.setWidth 16 <<< 8) ||| (y.setWidth 16 <<< 4)) (.shr x y) ∧
    DecodesTo (0x800E ||| (x.setWidth 16 <<< 8) ||| (y.setWidth 16 <<< 4)) (.shl x y) ∧
    (x ≠ VF →
      (∃ t, exec (.shr x y) s = .next t ∧ (t.reg x).toNat = (s.reg x).toNat / 2 ∧
        (t.reg VF).toNat = (s.reg x).toNat % 2 ∧ RegFrame s t [x, VF] ∧ Frame s t [.v]) ∧
      (∃ t, exec (.shl x y) s = .next t ∧ (t.reg x).toNat = (s.reg x).toNat * 2 % 256 ∧
        (t.reg VF).toNat = (s.reg x).toNat / 128 * 128 ∧ RegFrame s t [x, VF] ∧ Frame s t [.v]))

/-- 42_alu.md section 3 (R145 table, decision D5): under P_VF_ALIAS = sequential, the results of `8xy5`, `8xy6`, `8xy7` and
`8xyE` with `VF` as an operand, row by row. -/
def Obligations.FlagInstructionsWithVfAsOperand : Prop :=
  ∀ (s : State) (x y : Reg), s.params.vfAlias = .sequential →
    (y ≠ VF → ∃ t, exec (.subReg VF y) s = .next t ∧
      (t.reg VF).toNat = ((if (s.reg VF).toNat > (s.reg y).toNat then 1 else 0) + 256 - (s.reg y).toNat) % 256 ∧
      RegFrame s t [VF] ∧ Frame s t [.v]) ∧
    (x ≠ VF → ∃ t, exec (.subReg x VF) s = .next t ∧
      (t.reg VF).toNat = (if (s.reg x).toNat > (s.reg VF).toNat then 1 else 0) ∧
      (t.reg x).toNat = ((s.reg x).toNat + 256 - (t.reg VF).toNat) % 256 ∧ RegFrame s t [x, VF] ∧ Frame s t [.v]) ∧
    (∃ t, exec (.subReg VF VF) s = .next t ∧ t.reg VF = 0 ∧ RegFrame s t [VF] ∧ Frame s t [.v]) ∧
    (∃ t, exec (.shr VF y) s = .next t ∧ t.reg VF = 0 ∧ RegFrame s t [VF] ∧ Frame s t [.v]) ∧
    (y ≠ VF → ∃ t, exec (.subn VF y) s = .next t ∧
      (t.reg VF).toNat = ((s.reg y).toNat + 256 - (if (s.reg y).toNat > (s.reg VF).toNat then 1 else 0)) % 256 ∧
      RegFrame s t [VF] ∧ Frame s t [.v]) ∧
    (x ≠ VF → ∃ t, exec (.subn x VF) s = .next t ∧
      (t.reg VF).toNat = (if (s.reg VF).toNat > (s.reg x).toNat then 1 else 0) ∧
      (t.reg x).toNat = ((t.reg VF).toNat + 256 - (s.reg x).toNat) % 256 ∧ RegFrame s t [x, VF] ∧ Frame s t [.v]) ∧
    (∃ t, exec (.subn VF VF) s = .next t ∧ t.reg VF = 0 ∧ RegFrame s t [VF] ∧ Frame s t [.v]) ∧
    (∃ t, exec (.shl VF y) s = .next t ∧ t.reg VF = 0 ∧ RegFrame s t [VF] ∧ Frame s t [.v])

/-- 42_alu.md section 3 (R145, decision D5): under P_VF_ALIAS = refuse, a step on a word with `VF` as an operand sets the
fault mark with the word and leaves the rest of the state as it was before the step, timers and `PC` included; and a step
sets that mark under no other value of the parameter and on no other word. The form of the mark is the model's (log entries
10 and 11). -/
def Obligations.RefusedVfOperandLeavesTheStateBeforeTheStep : Prop :=
  (∀ (s : State) (w : Word) (i : Instr), s.params.vfAlias = .refuse → s.Running → s.Fetches w →
    decode s.params.decode w = .instr i → UsesVfAsOperand i →
    ∃ t, step s = .next t ∧ t.faulted = some (.vfOperand w) ∧ Frame s t [.faulted]) ∧
  (∀ (s t : State) (w : Word), step s = .next t → t.faulted = some (.vfOperand w) →
    s.params.vfAlias = .refuse ∧ s.Running ∧ s.Fetches w ∧
      ∃ i, decode s.params.decode w = .instr i ∧ UsesVfAsOperand i)

/-- 42_alu.md section 4 (R150, R151, decision D12; the draw is the model's free value, log entry 7): RND writes the draw
masked with the immediate, so that every bit where the mask is 0 is 0, and uses the draw up. It holds for every byte drawn.
-/
def Obligations.RandomByteIsMasked : Prop :=
  ∀ (s : State) (x : Reg) (kk : Byte),
    DecodesTo (0xC000 ||| (x.setWidth 16 <<< 8) ||| kk.setWidth 16) (.rnd x kk) ∧
    ∃ t, exec (.rnd x kk) s = .next t ∧ t.draws = s.draws + 1 ∧
      (∀ k, (t.reg x).getLsbD k = ((Config.randomByte s.draws).getLsbD k && kk.getLsbD k)) ∧
      RegFrame s t [x] ∧ Frame s t [.v, .draws]

/-! ### The index register and memory transfers (43_index_memory.md) -/

/-- R160, R161, R162, R164: the four instructions that write `I`, modulo 65536, with no flag and no other effect; `Bnnn`
does not jump, and `Fx29` does not mask the register to a digit. -/
def Obligations.IndexRegisterLoads : Prop :=
  ∀ (s : State) (x : Reg) (nnn : Addr12),
    DecodesTo (0xA000 ||| nnn.setWidth 16) (.ldI nnn) ∧ DecodesTo (0xB000 ||| nnn.setWidth 16) (.ldIV0 nnn) ∧
    DecodesTo (0xF01E ||| (x.setWidth 16 <<< 8)) (.addI x) ∧ DecodesTo (0xF029 ||| (x.setWidth 16 <<< 8)) (.ldF x) ∧
    (∃ t, exec (.ldI nnn) s = .next t ∧ t.idx.toNat = nnn.toNat ∧ Frame s t [.idx]) ∧
    (∃ t, exec (.ldIV0 nnn) s = .next t ∧ t.idx.toNat = (nnn.toNat + (s.reg 0).toNat) % 65536 ∧ Frame s t [.idx]) ∧
    (∃ t, exec (.addI x) s = .next t ∧ t.idx.toNat = (s.idx.toNat + (s.reg x).toNat) % 65536 ∧ Frame s t [.idx]) ∧
    (∃ t, exec (.ldF x) s = .next t ∧ t.idx.toNat = (s.reg x).toNat * 5 ∧ Frame s t [.idx])

/-- 43_index_memory.md section 2 (R165, decisions D1, D6): LD B stores the hundreds, tens and ones of the register from `I`
up, whatever the policy, and changes nothing else, `I` included. -/
def Obligations.DecimalStoreWritesThreeDigits : Prop :=
  ∀ (s : State) (x : Reg), DecodesTo (0xF033 ||| (x.setWidth 16 <<< 8)) (.ldB x) ∧
    (InReach s.params.oob s.idx.toNat 3 →
      ∃ t, exec (.ldB x) s = .next t ∧ Frame s t [.mem] ∧
        StoredFrom s t s.idx.toNat 3 (fun k => BitVec.ofNat 8 ((s.reg x).toNat / 10 ^ (2 - k) % 10)))

/-- 43_index_memory.md section 2 (R166, decisions D1, D6): LD [I] stores `V0` to `Vx` from `I` up and changes nothing else,
`I` included. -/
def Obligations.RegisterStoreWritesAscending : Prop :=
  ∀ (s : State) (x : Reg), DecodesTo (0xF055 ||| (x.setWidth 16 <<< 8)) (.stRegs x) ∧
    (InReach s.params.oob s.idx.toNat (x.toNat + 1) →
      ∃ t, exec (.stRegs x) s = .next t ∧ Frame s t [.mem] ∧
        StoredFrom s t s.idx.toNat (x.toNat + 1) (fun k => s.reg (BitVec.ofNat 4 k)))

/-- 43_index_memory.md section 2 (R167, decisions D1, D6): LD Vx, [I] loads `V0` to `Vx` from `I` up and changes nothing
else, `I` and the registers above `Vx` included. -/
def Obligations.RegisterLoadReadsAscending : Prop :=
  ∀ (s : State) (x : Reg), DecodesTo (0xF065 ||| (x.setWidth 16 <<< 8)) (.ldRegs x) ∧
    (InReach s.params.oob s.idx.toNat (x.toNat + 1) →
      ∃ t, exec (.ldRegs x) s = .next t ∧ Frame s t [.v] ∧
        (∀ r e, r.toNat ≤ x.toNat → eff s.params.oob (s.idx.toNat + r.toNat) = .ok e → t.reg r = s.byteAt e) ∧
        (∀ r, x.toNat < r.toNat → t.reg r = s.reg r))

/-- 20_memory.md section 2 (R54, decision D1) for `Fx33` and `Fx55`: under P_OOB = fault the first address above 0xFFF
faults; the bytes before it are stored, and nothing else changes. That the mark is a next state is the model's form (log
entry 10). -/
def Obligations.StoresFaultAtTheFirstAddressOutOfRange : Prop :=
  ∀ (s : State) (x : Reg), s.params.oob = .fault →
    (memSize < s.idx.toNat + 3 →
      ∃ t, exec (.ldB x) s = .next t ∧ t.faulted = some (.outOfRange (max s.idx.toNat 0x1000)) ∧
        Frame s t [.mem, .faulted] ∧
        StoredFrom s t s.idx.toNat 3 (fun k => BitVec.ofNat 8 ((s.reg x).toNat / 10 ^ (2 - k) % 10))) ∧
    (memSize < s.idx.toNat + (x.toNat + 1) →
      ∃ t, exec (.stRegs x) s = .next t ∧ t.faulted = some (.outOfRange (max s.idx.toNat 0x1000)) ∧
        Frame s t [.mem, .faulted] ∧
        StoredFrom s t s.idx.toNat (x.toNat + 1) (fun k => s.reg (BitVec.ofNat 4 k)))

/-- 20_memory.md section 2 (R54, decision D1) for `Fx65` and `Dxyn`: under P_OOB = fault the first address above 0xFFF
faults; the registers before it are loaded, or the rows before it are drawn with `VF` not written, and nothing else changes.
That the mark is a next state is the model's form (log entry 10). -/
def Obligations.LoadsAndDrawsFaultAtTheFirstAddressOutOfRange : Prop :=
  ∀ (s : State) (x y : Reg) (n : Nibble), s.params.oob = .fault →
    (memSize < s.idx.toNat + (x.toNat + 1) →
      ∃ t, exec (.ldRegs x) s = .next t ∧ t.faulted = some (.outOfRange (max s.idx.toNat 0x1000)) ∧
        Frame s t [.v, .faulted] ∧
        (∀ r, t.reg r = if r.toNat ≤ x.toNat ∧ s.idx.toNat + r.toNat < memSize then s.byteAt (s.idx.toNat + r.toNat)
          else s.reg r)) ∧
    (n ≠ 0 → memSize < s.idx.toNat + n.toNat →
      ∃ t, exec (.drw x y n) s = .next t ∧ t.faulted = some (.outOfRange (max s.idx.toNat 0x1000)) ∧
        Frame s t [.fb, .faulted] ∧ XoredBySprite s t x y n)

/-- 20_memory.md section 4 (R64): a store into code needs no synchronization. After `Fx33`, `Fx55` or `loadProgram`, under
every policy under which neither the store nor the fetch is out of range, a fetch at any address reads each of its two bytes
as the store left it: the byte stored last at what the address reaches, or the old byte. So after `Fx55` with `I` and `PC`
at one address under wrap and x at least 1, the next word is `V0` and `V1`. -/
def Obligations.StoreIntoCodeIsFetched : Prop :=
  (∀ (s : State) (x : Reg) (p : Word), InReach s.params.oob p.toNat 2 →
    (InReach s.params.oob s.idx.toNat 3 → ∃ t, exec (.ldB x) s = .next t ∧
      FetchSeesStored s t s.idx.toNat 3 (fun k => BitVec.ofNat 8 ((s.reg x).toNat / 10 ^ (2 - k) % 10)) p) ∧
    (InReach s.params.oob s.idx.toNat (x.toNat + 1) → ∃ t, exec (.stRegs x) s = .next t ∧
      FetchSeesStored s t s.idx.toNat (x.toNat + 1) (fun k => s.reg (BitVec.ofNat 4 k)) p) ∧
    (∀ bytes : List Byte, bytes.length ≤ 3584 → ∃ t, hostApply (.loadProgram bytes) s = .next t ∧
      FetchSeesStored s t 0x200 bytes.length (fun k => bytes.getD k 0) p)) ∧
  (∀ (s : State) (x : Reg), s.params.oob = .wrap → x ≠ 0 → s.idx.toNat % memSize = s.pc.toNat % memSize →
    ∃ t, exec (.stRegs x) s = .next t ∧ t.Fetches (wordOfBytes (s.reg 0) (s.reg 1)))

/-! ### The Display (44_display.md) -/

/-- R181, R185: CLS makes every pixel 0 and changes nothing else; its word is `00E0`, under keyed decoding `0XE0`. -/
def Obligations.ClearMakesEveryPixelDark : Prop :=
  ∀ (s : State) (x : Reg), DecodesTo 0x00E0 .cls ∧ decode .keyed ((x.setWidth 16 <<< 8) ||| 0x00E0) = .instr .cls ∧
    ∃ t, exec .cls s = .next t ∧ (∀ c r, pixel t.fb c r = false) ∧ Frame s t [.fb]

/-- R182, R183: DrawPixel reports the pixel it finds and flips it, coordinates taken modulo 64 and 32, and leaves every
other pixel; a second draw at the same place reports the opposite and restores it. -/
def Obligations.DrawPixelFlipsAndReportsCollision : Prop :=
  ∀ (fb : Framebuffer) (c r : Nat),
    drawPixel fb (c % dispW) (r % dispH) = drawPixel fb c r ∧
    (drawPixel fb c r).2 = pixel fb c r ∧
    (∀ c' r', c' < dispW → r' < dispH →
      pixel (drawPixel fb c r).1 c' r' =
        if c' = c % dispW ∧ r' = r % dispH then !pixel fb c r else pixel fb c' r') ∧
    (drawPixel (drawPixel fb c r).1 c r).2 = !pixel fb c r ∧
    (∀ c' r', pixel (drawPixel (drawPixel fb c r).1 c r).1 c' r' = pixel fb c' r')

/-- 44_display.md section 2 (R188 to R190): DRW makes the framebuffer its old self XOR the sprite, with wraparound and the
coordinates read before `VF` is written, and `VF` 1 exactly when the sprite and the old framebuffer share a lit pixel; it
changes nothing else, `I` included. -/
def Obligations.DrawXorsTheSpriteAndReportsCollision : Prop :=
  ∀ (s : State) (x y : Reg) (n : Nibble),
    DecodesTo (0xD000 ||| (x.setWidth 16 <<< 8) ||| (y.setWidth 16 <<< 4) ||| n.setWidth 16) (.drw x y n) ∧
    (InReach s.params.oob s.idx.toNat n.toNat →
      ∃ t, exec (.drw x y n) s = .next t ∧ XoredBySprite s t x y n ∧
        (Collides s x y n → t.reg VF = 1) ∧ (¬ Collides s x y n → t.reg VF = 0) ∧
        RegFrame s t [VF] ∧ Frame s t [.fb, .v])

/-! ### The Keyboard (45_keyboard.md) -/

/-- 45_keyboard.md section 2 (R206, R207, R202, decision D24): SKP skips when the key of the register is pressed, SKNP when
it is not; a code above 15 is never pressed. -/
def Obligations.KeySkipsTestTheKeySet : Prop :=
  ∀ (s : State) (x : Reg),
    DecodesTo (0xE09E ||| (x.setWidth 16 <<< 8)) (.skp x) ∧ DecodesTo (0xE0A1 ||| (x.setWidth 16 <<< 8)) (.sknp x) ∧
    (∃ t, exec (.skp x) s = .next t ∧ Frame s t [.pc] ∧
      t.pc.toNat = if (s.reg x).toNat ≤ 15 ∧ s.isPressed (s.reg x) = true then (s.pc.toNat + 2) % 65536 else s.pc.toNat) ∧
    (∃ t, exec (.sknp x) s = .next t ∧ Frame s t [.pc] ∧
      t.pc.toNat = if (s.reg x).toNat ≤ 15 ∧ s.isPressed (s.reg x) = true then s.pc.toNat else (s.pc.toNat + 2) % 65536)

/-- 45_keyboard.md section 2 (R208, R203): LD Vx, K pauses and makes x the pending register, over any earlier one; the
register itself is not written yet. -/
def Obligations.WaitForKeyPauses : Prop :=
  ∀ (s : State) (x : Reg), DecodesTo (0xF00A ||| (x.setWidth 16 <<< 8)) (.ldVxK x) ∧
    ∃ t, exec (.ldVxK x) s = .next t ∧ t.paused = true ∧ t.pending = some x ∧ Frame s t [.paused, .pending]

/-- R204: a key-down fires a pending wait once (the register takes the key, the pause ends, the slot empties), also for a
key already held, and then adds the key; with nothing pending it only adds the key. -/
def Obligations.KeyDownFiresThePendingWait : Prop :=
  ∀ (s : State) (k : Nat), k ≤ 15 →
    ∃ t, hostApply (.onKeyDown k) s = .next t ∧
      (∀ c : Byte, t.isPressed c = true ↔ c.toNat = k ∨ s.isPressed c = true) ∧
      (∀ x, s.pending = some x → (t.reg x).toNat = k ∧ RegFrame s t [x] ∧ t.paused = false ∧ t.pending = none ∧
        Frame s t [.v, .paused, .pending, .pressed]) ∧
      (s.pending = none → Frame s t [.pressed])

/-- R205: a key-up removes the key, and neither fires a pending wait nor changes `paused`. -/
def Obligations.KeyUpOnlyRemovesTheKey : Prop :=
  ∀ (s : State) (k : Nat), k ≤ 15 →
    ∃ t, hostApply (.onKeyUp k) s = .next t ∧
      (∀ c : Byte, t.isPressed c = true ↔ c.toNat ≠ k ∧ s.isPressed c = true) ∧ Frame s t [.pressed]

/-- 45_keyboard.md sections 2 and 3 (R208, R209): from a step that runs LD Vx, K, any number of steps wait at the next
instruction with nothing changed, and a key-down then puts the key in the register and lets the block run from there. -/
def Obligations.WaitHoldsUntilAKeyDown : Prop :=
  ∀ (s : State) (x : Reg) (n k : Nat), s.AboutToRun (.ldVxK x) → k ≤ 15 →
    (∃ t, core.run (n + 1) s = .next t ∧ t.paused = true ∧ t.pending = some x ∧ t.pc = s.pc + 2 ∧
      t.dt.toNat = s.dt.toNat - 1 ∧ t.st.toNat = s.st.toNat - 1 ∧ Frame s t [.pc, .dt, .st, .paused, .pending]) ∧
    (∃ u, hostRun (List.replicate (n + 1) .step ++ [.onKeyDown k]) s = .next u ∧ u.Running ∧ u.pending = none ∧
      u.pc = s.pc + 2 ∧ (u.reg x).toNat = k ∧ RegFrame s u [x])

/-- 60_exceptions.md section 1 (R237, decisions D10, D11; log entry 22): key codes above 15 and images above 3584 bytes are
refused by name, with no move; every other operation of the host answers a next state from an unfaulted state. A step is
among these: the `VFOperand` refusal of R13 and R237, and the faults, are in this model next states with the fault mark (log
entries 10 and 11). And 44_display.md section 1 (R184): getDisplay answers the framebuffer and changes nothing. -/
def Obligations.OnlyBadArgumentsAreRefused : Prop :=
  ∀ (op : HostOp) (s : State),
    (∀ k, 15 < k → hostApply (.onKeyDown k) s = .refused (.badKeyCode k) ∧
      hostApply (.onKeyUp k) s = .refused (.badKeyCode k)) ∧
    (∀ bytes, 3584 < bytes.length → hostApply (.loadProgram bytes) s = .refused (.programTooLong bytes.length)) ∧
    (op.wellFormed = true → s.faulted = none → ∃ t, hostApply op s = .next t) ∧
    (hostApply .getDisplay s = .next s ∧ getDisplay s = s.fb)

/-! ### The timers (46_timers.md) -/

/-- 46_timers.md (R221 to R223): the three timer transfers, as executed; the decrement is the step's. -/
def Obligations.TimerTransfers : Prop :=
  ∀ (s : State) (x : Reg),
    DecodesTo (0xF007 ||| (x.setWidth 16 <<< 8)) (.ldVxDT x) ∧ DecodesTo (0xF015 ||| (x.setWidth 16 <<< 8)) (.ldDTVx x) ∧
    DecodesTo (0xF018 ||| (x.setWidth 16 <<< 8)) (.ldSTVx x) ∧
    (∃ t, exec (.ldVxDT x) s = .next t ∧ t.reg x = s.dt ∧ RegFrame s t [x] ∧ Frame s t [.v]) ∧
    (∃ t, exec (.ldDTVx x) s = .next t ∧ t.dt = s.reg x ∧ Frame s t [.dt]) ∧
    (∃ t, exec (.ldSTVx x) s = .next t ∧ t.st = s.reg x ∧ Frame s t [.st])

/-- 46_timers.md (R221 to R223, decision D4): what the host sees after the step: a timer set to v reads v - 1 under
after_execute and v under before_fetch, and the value read by `Fx07` is before or after the step's decrement. -/
def Obligations.TimerStepsAsTheHostSeesThem : Prop :=
  ∀ (s : State) (x : Reg),
    (s.AboutToRun (.ldDTVx x) → ∃ t, step s = .next t ∧
      t.dt.toNat = (if s.params.timers = .afterExecute then (s.reg x).toNat - 1 else (s.reg x).toNat)) ∧
    (s.AboutToRun (.ldSTVx x) → ∃ t, step s = .next t ∧
      t.st.toNat = (if s.params.timers = .afterExecute then (s.reg x).toNat - 1 else (s.reg x).toNat)) ∧
    (s.AboutToRun (.ldVxDT x) → ∃ t, step s = .next t ∧ t.dt.toNat = s.dt.toNat - 1 ∧
      (t.reg x).toNat = (if s.params.timers = .afterExecute then s.dt.toNat else s.dt.toNat - 1))

/-! ### The host (70_reset_and_hazards.md) -/

/-- 70_reset_and_hazards.md section 1 (R262, decision D11): an image of at most 3584 bytes is copied to 0x200 and up, and
nothing else changes: no register, no `PC`, no byte outside the image. -/
def Obligations.LoadProgramCopiesTheImage : Prop :=
  ∀ (s : State) (bytes : List Byte), bytes.length ≤ 3584 →
    ∃ t, hostApply (.loadProgram bytes) s = .next t ∧ Frame s t [.mem] ∧
      (∀ k, (h : k < bytes.length) → t.byteAt (0x200 + k) = bytes[k]) ∧
      (∀ a, a < 0x200 ∨ 0x200 + bytes.length ≤ a → t.byteAt a = s.byteAt a)
end

