-- ==== Sys2Proof/Laws/Fields.lean ====
section
/-! SUPPORT. The fields of an assembled word are the fields it was assembled from, and a word is assembled from its fields:
what a round trip of decoding and encoding needs, said once per format. -/

namespace Sys2Proof

/-! ### Fields of a word of format NNN -/

@[simp] theorem fieldOp_wordNnn (op : Nibble) (nnn : Addr12) : fieldOp (wordNnn op nnn) = op := by
  apply BitVec.eq_of_getLsbD_eq
  intro i hi
  simp only [fieldOp, wordNnn, BitVec.getLsbD_extractLsb', BitVec.getLsbD_or, BitVec.getLsbD_shiftLeft,
    BitVec.getLsbD_setWidth]
  rw [BitVec.getLsbD_of_ge nnn (12 + i) (by omega)]
  have h1 : 12 + i < 16 := by omega
  have h2 : 12 + i - 12 = i := by omega
  simp [hi, h1, h2]; omega

@[simp] theorem fieldNnn_wordNnn (op : Nibble) (nnn : Addr12) : fieldNnn (wordNnn op nnn) = nnn := by
  apply BitVec.eq_of_getLsbD_eq
  intro i hi
  simp only [fieldNnn, wordNnn, BitVec.getLsbD_extractLsb', BitVec.getLsbD_or, BitVec.getLsbD_shiftLeft,
    BitVec.getLsbD_setWidth]
  simp [hi]; omega

/-! ### Fields of a word of formats XY and XYN -/

@[simp] theorem fieldOp_wordXyn (op : Nibble) (x y : Reg) (n : Nibble) : fieldOp (wordXyn op x y n) = op := by
  apply BitVec.eq_of_getLsbD_eq
  intro i hi
  simp only [fieldOp, wordXyn, BitVec.getLsbD_extractLsb', BitVec.getLsbD_or, BitVec.getLsbD_shiftLeft,
    BitVec.getLsbD_setWidth]
  rw [BitVec.getLsbD_of_ge n (12 + i) (by omega), BitVec.getLsbD_of_ge y (12 + i - 4) (by omega),
    BitVec.getLsbD_of_ge x (12 + i - 8) (by omega)]
  have h1 : 12 + i < 16 := by omega
  have h2 : 12 + i - 12 = i := by omega
  simp [hi, h1, h2]; omega

@[simp] theorem fieldX_wordXyn (op : Nibble) (x y : Reg) (n : Nibble) : fieldX (wordXyn op x y n) = x := by
  apply BitVec.eq_of_getLsbD_eq
  intro i hi
  simp only [fieldX, wordXyn, BitVec.getLsbD_extractLsb', BitVec.getLsbD_or, BitVec.getLsbD_shiftLeft,
    BitVec.getLsbD_setWidth]
  rw [BitVec.getLsbD_of_ge n (8 + i) (by omega), BitVec.getLsbD_of_ge y (8 + i - 4) (by omega)]
  have h1 : 8 + i < 16 := by omega
  have h2 : 8 + i < 12 := by omega
  have h3 : 8 + i - 8 = i := by omega
  simp [hi, h1, h2, h3]; omega

@[simp] theorem fieldY_wordXyn (op : Nibble) (x y : Reg) (n : Nibble) : fieldY (wordXyn op x y n) = y := by
  apply BitVec.eq_of_getLsbD_eq
  intro i hi
  simp only [fieldY, wordXyn, BitVec.getLsbD_extractLsb', BitVec.getLsbD_or, BitVec.getLsbD_shiftLeft,
    BitVec.getLsbD_setWidth]
  rw [BitVec.getLsbD_of_ge n (4 + i) (by omega)]
  have h1 : 4 + i < 16 := by omega
  have h2 : 4 + i < 12 := by omega
  have h3 : 4 + i < 8 := by omega
  have h4 : 4 + i - 4 = i := by omega
  simp [hi, h1, h2, h3, h4]; omega

@[simp] theorem fieldN_wordXyn (op : Nibble) (x y : Reg) (n : Nibble) : fieldN (wordXyn op x y n) = n := by
  apply BitVec.eq_of_getLsbD_eq
  intro i hi
  simp only [fieldN, wordXyn, BitVec.getLsbD_extractLsb', BitVec.getLsbD_or, BitVec.getLsbD_shiftLeft,
    BitVec.getLsbD_setWidth]
  have h1 : i < 16 := by omega
  have h2 : i < 12 := by omega
  have h3 : i < 8 := by omega
  simp [hi, h1, h2, h3]

/-! ### Fields of a word of formats XKK and X -/

@[simp] theorem fieldOp_wordXkk (op : Nibble) (x : Reg) (kk : Byte) : fieldOp (wordXkk op x kk) = op := by
  apply BitVec.eq_of_getLsbD_eq
  intro i hi
  simp only [fieldOp, wordXkk, BitVec.getLsbD_extractLsb', BitVec.getLsbD_or, BitVec.getLsbD_shiftLeft,
    BitVec.getLsbD_setWidth]
  rw [BitVec.getLsbD_of_ge kk (12 + i) (by omega), BitVec.getLsbD_of_ge x (12 + i - 8) (by omega)]
  have h1 : 12 + i < 16 := by omega
  have h2 : 12 + i - 12 = i := by omega
  simp [hi, h1, h2]; omega

@[simp] theorem fieldX_wordXkk (op : Nibble) (x : Reg) (kk : Byte) : fieldX (wordXkk op x kk) = x := by
  apply BitVec.eq_of_getLsbD_eq
  intro i hi
  simp only [fieldX, wordXkk, BitVec.getLsbD_extractLsb', BitVec.getLsbD_or, BitVec.getLsbD_shiftLeft,
    BitVec.getLsbD_setWidth]
  rw [BitVec.getLsbD_of_ge kk (8 + i) (by omega)]
  have h1 : 8 + i < 16 := by omega
  have h2 : 8 + i < 12 := by omega
  have h3 : 8 + i - 8 = i := by omega
  simp [hi, h1, h2, h3]; omega

@[simp] theorem fieldKk_wordXkk (op : Nibble) (x : Reg) (kk : Byte) : fieldKk (wordXkk op x kk) = kk := by
  apply BitVec.eq_of_getLsbD_eq
  intro i hi
  simp only [fieldKk, wordXkk, BitVec.getLsbD_extractLsb', BitVec.getLsbD_or, BitVec.getLsbD_shiftLeft,
    BitVec.getLsbD_setWidth]
  have h1 : i < 16 := by omega
  have h2 : i < 12 := by omega
  simp [hi, h1, h2]

/-! ### A word from its fields -/

theorem wordNnn_fields (w : Word) : wordNnn (fieldOp w) (fieldNnn w) = w := by
  apply BitVec.eq_of_getLsbD_eq
  intro i hi
  simp only [fieldOp, fieldNnn, wordNnn, BitVec.getLsbD_extractLsb', BitVec.getLsbD_or, BitVec.getLsbD_shiftLeft,
    BitVec.getLsbD_setWidth]
  by_cases h : i < 12
  · simp [h, hi]
  · have h1 : i - 12 < 4 := by omega
    have h2 : 12 + (i - 12) = i := by omega
    simp [h, hi, h1, h2]; omega

theorem wordXkk_fields (w : Word) : wordXkk (fieldOp w) (fieldX w) (fieldKk w) = w := by
  apply BitVec.eq_of_getLsbD_eq
  intro i hi
  simp only [fieldOp, fieldX, fieldKk, wordXkk, BitVec.getLsbD_extractLsb', BitVec.getLsbD_or,
    BitVec.getLsbD_shiftLeft, BitVec.getLsbD_setWidth]
  by_cases h : i < 8
  · have h1 : i < 12 := by omega
    simp [h, h1, hi]
  · by_cases h1 : i < 12
    · have h2 : i - 8 < 4 := by omega
      have h3 : 8 + (i - 8) = i := by omega
      simp [h, h1, hi, h2, h3]; omega
    · have h2 : ¬ i - 8 < 4 := by omega
      have h3 : i - 12 < 4 := by omega
      have h4 : 12 + (i - 12) = i := by omega
      simp [h, h1, hi, h2, h3, h4]; omega

theorem wordXyn_fields (w : Word) : wordXyn (fieldOp w) (fieldX w) (fieldY w) (fieldN w) = w := by
  apply BitVec.eq_of_getLsbD_eq
  intro i hi
  simp only [fieldOp, fieldX, fieldY, fieldN, wordXyn, BitVec.getLsbD_extractLsb', BitVec.getLsbD_or,
    BitVec.getLsbD_shiftLeft, BitVec.getLsbD_setWidth]
  by_cases h : i < 4
  · have h1 : i < 12 := by omega
    have h2 : i < 8 := by omega
    simp [h, h1, h2, hi]
  · by_cases h0 : i < 8
    · have h1 : i < 12 := by omega
      have h2 : i - 4 < 4 := by omega
      have h3 : 4 + (i - 4) = i := by omega
      simp [h, h0, h1, hi, h2, h3]; omega
    · by_cases h1 : i < 12
      · have h2 : i - 8 < 4 := by omega
        have h3 : 8 + (i - 8) = i := by omega
        have h4 : ¬ i - 4 < 4 := by omega
        simp [h, h0, h1, hi, h2, h3, h4]; omega
      · have h2 : ¬ i - 8 < 4 := by omega
        have h3 : i - 12 < 4 := by omega
        have h4 : 12 + (i - 12) = i := by omega
        have h5 : ¬ i - 4 < 4 := by omega
        simp [h, h0, h1, hi, h2, h3, h4, h5]; omega

/-! ### A word under the masks of the opcode map -/

theorem wordNnn_and_op (op : Nibble) (nnn : Addr12) : wordNnn op nnn &&& 0xF000 = wordNnn op 0 := by
  apply BitVec.eq_of_getLsbD_eq
  intro i hi
  simp only [wordNnn, BitVec.getLsbD_and, BitVec.getLsbD_or, BitVec.getLsbD_shiftLeft, BitVec.getLsbD_setWidth]
  interval_cases i <;> simp

theorem wordXkk_and_op (op : Nibble) (x : Reg) (kk : Byte) : wordXkk op x kk &&& 0xF000 = wordXkk op 0 0 := by
  apply BitVec.eq_of_getLsbD_eq
  intro i hi
  simp only [wordXkk, BitVec.getLsbD_and, BitVec.getLsbD_or, BitVec.getLsbD_shiftLeft, BitVec.getLsbD_setWidth]
  interval_cases i <;> simp

theorem wordXkk_and_opKk (op : Nibble) (x : Reg) (kk : Byte) : wordXkk op x kk &&& 0xF0FF = wordXkk op 0 kk := by
  apply BitVec.eq_of_getLsbD_eq
  intro i hi
  simp only [wordXkk, BitVec.getLsbD_and, BitVec.getLsbD_or, BitVec.getLsbD_shiftLeft, BitVec.getLsbD_setWidth]
  interval_cases i <;> simp

theorem wordXyn_and_op (op : Nibble) (x y : Reg) (n : Nibble) : wordXyn op x y n &&& 0xF000 = wordXyn op 0 0 0 := by
  apply BitVec.eq_of_getLsbD_eq
  intro i hi
  simp only [wordXyn, BitVec.getLsbD_and, BitVec.getLsbD_or, BitVec.getLsbD_shiftLeft, BitVec.getLsbD_setWidth]
  interval_cases i <;> simp

theorem wordXyn_and_opN (op : Nibble) (x y : Reg) (n : Nibble) : wordXyn op x y n &&& 0xF00F = wordXyn op 0 0 n := by
  apply BitVec.eq_of_getLsbD_eq
  intro i hi
  simp only [wordXyn, BitVec.getLsbD_and, BitVec.getLsbD_or, BitVec.getLsbD_shiftLeft, BitVec.getLsbD_setWidth]
  interval_cases i <;> simp

/-! ### The spec's own spelling of an encoding: all fixed bits first, then the fields -/

theorem wordXyn_fixed_first (op : Nibble) (x y : Reg) (n : Nibble) :
    (op.setWidth 16 <<< 12 ||| n.setWidth 16) ||| (x.setWidth 16 <<< 8) ||| (y.setWidth 16 <<< 4) = wordXyn op x y n := by
  unfold wordXyn
  ac_rfl

theorem wordXkk_fixed_first (op : Nibble) (x : Reg) (kk : Byte) :
    (op.setWidth 16 <<< 12 ||| kk.setWidth 16) ||| (x.setWidth 16 <<< 8) = wordXkk op x kk := by
  unfold wordXkk
  ac_rfl

end Sys2Proof
end

