-- ==== Sys2Proof/Laws/State.lean ====
section
/-! SUPPORT. What each update of the state does to each field: one lemma per field per update, so that no proof unfolds a
record update. -/

namespace Sys2Proof.Machine

variable (s : State)

/-! ### `setReg` -/

@[simp] theorem State.setReg_mem (x : Reg) (b : Byte) : (s.setReg x b).mem = s.mem := rfl
theorem State.setReg_v (x : Reg) (b : Byte) : (s.setReg x b).v = s.v.set x.toNat b x.isLt := rfl
@[simp] theorem State.setReg_idx (x : Reg) (b : Byte) : (s.setReg x b).idx = s.idx := rfl
@[simp] theorem State.setReg_pc (x : Reg) (b : Byte) : (s.setReg x b).pc = s.pc := rfl
@[simp] theorem State.setReg_sp (x : Reg) (b : Byte) : (s.setReg x b).sp = s.sp := rfl
@[simp] theorem State.setReg_stack (x : Reg) (b : Byte) : (s.setReg x b).stack = s.stack := rfl
@[simp] theorem State.setReg_dt (x : Reg) (b : Byte) : (s.setReg x b).dt = s.dt := rfl
@[simp] theorem State.setReg_st (x : Reg) (b : Byte) : (s.setReg x b).st = s.st := rfl
@[simp] theorem State.setReg_paused (x : Reg) (b : Byte) : (s.setReg x b).paused = s.paused := rfl
@[simp] theorem State.setReg_fb (x : Reg) (b : Byte) : (s.setReg x b).fb = s.fb := rfl
@[simp] theorem State.setReg_pressed (x : Reg) (b : Byte) : (s.setReg x b).pressed = s.pressed := rfl
@[simp] theorem State.setReg_pending (x : Reg) (b : Byte) : (s.setReg x b).pending = s.pending := rfl
@[simp] theorem State.setReg_faulted (x : Reg) (b : Byte) : (s.setReg x b).faulted = s.faulted := rfl
@[simp] theorem State.setReg_draws (x : Reg) (b : Byte) : (s.setReg x b).draws = s.draws := rfl
@[simp] theorem State.setReg_params (x : Reg) (b : Byte) : (s.setReg x b).params = s.params := rfl

/-! ### `setIdx` -/

@[simp] theorem State.setIdx_mem (w : Word) : (s.setIdx w).mem = s.mem := rfl
@[simp] theorem State.setIdx_v (w : Word) : (s.setIdx w).v = s.v := rfl
@[simp] theorem State.setIdx_idx (w : Word) : (s.setIdx w).idx = w := rfl
@[simp] theorem State.setIdx_pc (w : Word) : (s.setIdx w).pc = s.pc := rfl
@[simp] theorem State.setIdx_sp (w : Word) : (s.setIdx w).sp = s.sp := rfl
@[simp] theorem State.setIdx_stack (w : Word) : (s.setIdx w).stack = s.stack := rfl
@[simp] theorem State.setIdx_dt (w : Word) : (s.setIdx w).dt = s.dt := rfl
@[simp] theorem State.setIdx_st (w : Word) : (s.setIdx w).st = s.st := rfl
@[simp] theorem State.setIdx_paused (w : Word) : (s.setIdx w).paused = s.paused := rfl
@[simp] theorem State.setIdx_fb (w : Word) : (s.setIdx w).fb = s.fb := rfl
@[simp] theorem State.setIdx_pressed (w : Word) : (s.setIdx w).pressed = s.pressed := rfl
@[simp] theorem State.setIdx_pending (w : Word) : (s.setIdx w).pending = s.pending := rfl
@[simp] theorem State.setIdx_faulted (w : Word) : (s.setIdx w).faulted = s.faulted := rfl
@[simp] theorem State.setIdx_draws (w : Word) : (s.setIdx w).draws = s.draws := rfl
@[simp] theorem State.setIdx_params (w : Word) : (s.setIdx w).params = s.params := rfl

/-! ### `setPc` -/

@[simp] theorem State.setPc_mem (w : Word) : (s.setPc w).mem = s.mem := rfl
@[simp] theorem State.setPc_v (w : Word) : (s.setPc w).v = s.v := rfl
@[simp] theorem State.setPc_idx (w : Word) : (s.setPc w).idx = s.idx := rfl
@[simp] theorem State.setPc_pc (w : Word) : (s.setPc w).pc = w := rfl
@[simp] theorem State.setPc_sp (w : Word) : (s.setPc w).sp = s.sp := rfl
@[simp] theorem State.setPc_stack (w : Word) : (s.setPc w).stack = s.stack := rfl
@[simp] theorem State.setPc_dt (w : Word) : (s.setPc w).dt = s.dt := rfl
@[simp] theorem State.setPc_st (w : Word) : (s.setPc w).st = s.st := rfl
@[simp] theorem State.setPc_paused (w : Word) : (s.setPc w).paused = s.paused := rfl
@[simp] theorem State.setPc_fb (w : Word) : (s.setPc w).fb = s.fb := rfl
@[simp] theorem State.setPc_pressed (w : Word) : (s.setPc w).pressed = s.pressed := rfl
@[simp] theorem State.setPc_pending (w : Word) : (s.setPc w).pending = s.pending := rfl
@[simp] theorem State.setPc_faulted (w : Word) : (s.setPc w).faulted = s.faulted := rfl
@[simp] theorem State.setPc_draws (w : Word) : (s.setPc w).draws = s.draws := rfl
@[simp] theorem State.setPc_params (w : Word) : (s.setPc w).params = s.params := rfl

/-! ### `setSp` -/

@[simp] theorem State.setSp_mem (b : Byte) : (s.setSp b).mem = s.mem := rfl
@[simp] theorem State.setSp_v (b : Byte) : (s.setSp b).v = s.v := rfl
@[simp] theorem State.setSp_idx (b : Byte) : (s.setSp b).idx = s.idx := rfl
@[simp] theorem State.setSp_pc (b : Byte) : (s.setSp b).pc = s.pc := rfl
@[simp] theorem State.setSp_sp (b : Byte) : (s.setSp b).sp = b := rfl
@[simp] theorem State.setSp_stack (b : Byte) : (s.setSp b).stack = s.stack := rfl
@[simp] theorem State.setSp_dt (b : Byte) : (s.setSp b).dt = s.dt := rfl
@[simp] theorem State.setSp_st (b : Byte) : (s.setSp b).st = s.st := rfl
@[simp] theorem State.setSp_paused (b : Byte) : (s.setSp b).paused = s.paused := rfl
@[simp] theorem State.setSp_fb (b : Byte) : (s.setSp b).fb = s.fb := rfl
@[simp] theorem State.setSp_pressed (b : Byte) : (s.setSp b).pressed = s.pressed := rfl
@[simp] theorem State.setSp_pending (b : Byte) : (s.setSp b).pending = s.pending := rfl
@[simp] theorem State.setSp_faulted (b : Byte) : (s.setSp b).faulted = s.faulted := rfl
@[simp] theorem State.setSp_draws (b : Byte) : (s.setSp b).draws = s.draws := rfl
@[simp] theorem State.setSp_params (b : Byte) : (s.setSp b).params = s.params := rfl

/-! ### `setDt` -/

@[simp] theorem State.setDt_mem (b : Byte) : (s.setDt b).mem = s.mem := rfl
@[simp] theorem State.setDt_v (b : Byte) : (s.setDt b).v = s.v := rfl
@[simp] theorem State.setDt_idx (b : Byte) : (s.setDt b).idx = s.idx := rfl
@[simp] theorem State.setDt_pc (b : Byte) : (s.setDt b).pc = s.pc := rfl
@[simp] theorem State.setDt_sp (b : Byte) : (s.setDt b).sp = s.sp := rfl
@[simp] theorem State.setDt_stack (b : Byte) : (s.setDt b).stack = s.stack := rfl
@[simp] theorem State.setDt_dt (b : Byte) : (s.setDt b).dt = b := rfl
@[simp] theorem State.setDt_st (b : Byte) : (s.setDt b).st = s.st := rfl
@[simp] theorem State.setDt_paused (b : Byte) : (s.setDt b).paused = s.paused := rfl
@[simp] theorem State.setDt_fb (b : Byte) : (s.setDt b).fb = s.fb := rfl
@[simp] theorem State.setDt_pressed (b : Byte) : (s.setDt b).pressed = s.pressed := rfl
@[simp] theorem State.setDt_pending (b : Byte) : (s.setDt b).pending = s.pending := rfl
@[simp] theorem State.setDt_faulted (b : Byte) : (s.setDt b).faulted = s.faulted := rfl
@[simp] theorem State.setDt_draws (b : Byte) : (s.setDt b).draws = s.draws := rfl
@[simp] theorem State.setDt_params (b : Byte) : (s.setDt b).params = s.params := rfl

/-! ### `setSt` -/

@[simp] theorem State.setSt_mem (b : Byte) : (s.setSt b).mem = s.mem := rfl
@[simp] theorem State.setSt_v (b : Byte) : (s.setSt b).v = s.v := rfl
@[simp] theorem State.setSt_idx (b : Byte) : (s.setSt b).idx = s.idx := rfl
@[simp] theorem State.setSt_pc (b : Byte) : (s.setSt b).pc = s.pc := rfl
@[simp] theorem State.setSt_sp (b : Byte) : (s.setSt b).sp = s.sp := rfl
@[simp] theorem State.setSt_stack (b : Byte) : (s.setSt b).stack = s.stack := rfl
@[simp] theorem State.setSt_dt (b : Byte) : (s.setSt b).dt = s.dt := rfl
@[simp] theorem State.setSt_st (b : Byte) : (s.setSt b).st = b := rfl
@[simp] theorem State.setSt_paused (b : Byte) : (s.setSt b).paused = s.paused := rfl
@[simp] theorem State.setSt_fb (b : Byte) : (s.setSt b).fb = s.fb := rfl
@[simp] theorem State.setSt_pressed (b : Byte) : (s.setSt b).pressed = s.pressed := rfl
@[simp] theorem State.setSt_pending (b : Byte) : (s.setSt b).pending = s.pending := rfl
@[simp] theorem State.setSt_faulted (b : Byte) : (s.setSt b).faulted = s.faulted := rfl
@[simp] theorem State.setSt_draws (b : Byte) : (s.setSt b).draws = s.draws := rfl
@[simp] theorem State.setSt_params (b : Byte) : (s.setSt b).params = s.params := rfl

/-! ### `setSlot` -/

@[simp] theorem State.setSlot_mem (j : Fin 16) (w : Word) : (s.setSlot j w).mem = s.mem := rfl
@[simp] theorem State.setSlot_v (j : Fin 16) (w : Word) : (s.setSlot j w).v = s.v := rfl
@[simp] theorem State.setSlot_idx (j : Fin 16) (w : Word) : (s.setSlot j w).idx = s.idx := rfl
@[simp] theorem State.setSlot_pc (j : Fin 16) (w : Word) : (s.setSlot j w).pc = s.pc := rfl
@[simp] theorem State.setSlot_sp (j : Fin 16) (w : Word) : (s.setSlot j w).sp = s.sp := rfl
theorem State.setSlot_stack (j : Fin 16) (w : Word) : (s.setSlot j w).stack = s.stack.set j w j.isLt := rfl
@[simp] theorem State.setSlot_dt (j : Fin 16) (w : Word) : (s.setSlot j w).dt = s.dt := rfl
@[simp] theorem State.setSlot_st (j : Fin 16) (w : Word) : (s.setSlot j w).st = s.st := rfl
@[simp] theorem State.setSlot_paused (j : Fin 16) (w : Word) : (s.setSlot j w).paused = s.paused := rfl
@[simp] theorem State.setSlot_fb (j : Fin 16) (w : Word) : (s.setSlot j w).fb = s.fb := rfl
@[simp] theorem State.setSlot_pressed (j : Fin 16) (w : Word) : (s.setSlot j w).pressed = s.pressed := rfl
@[simp] theorem State.setSlot_pending (j : Fin 16) (w : Word) : (s.setSlot j w).pending = s.pending := rfl
@[simp] theorem State.setSlot_faulted (j : Fin 16) (w : Word) : (s.setSlot j w).faulted = s.faulted := rfl
@[simp] theorem State.setSlot_draws (j : Fin 16) (w : Word) : (s.setSlot j w).draws = s.draws := rfl
@[simp] theorem State.setSlot_params (j : Fin 16) (w : Word) : (s.setSlot j w).params = s.params := rfl

/-! ### `advance` -/

@[simp] theorem State.advance_mem : s.advance.mem = s.mem := rfl
@[simp] theorem State.advance_v : s.advance.v = s.v := rfl
@[simp] theorem State.advance_idx : s.advance.idx = s.idx := rfl
@[simp] theorem State.advance_pc : s.advance.pc = s.pc + 2 := rfl
@[simp] theorem State.advance_sp : s.advance.sp = s.sp := rfl
@[simp] theorem State.advance_stack : s.advance.stack = s.stack := rfl
@[simp] theorem State.advance_dt : s.advance.dt = s.dt := rfl
@[simp] theorem State.advance_st : s.advance.st = s.st := rfl
@[simp] theorem State.advance_paused : s.advance.paused = s.paused := rfl
@[simp] theorem State.advance_fb : s.advance.fb = s.fb := rfl
@[simp] theorem State.advance_pressed : s.advance.pressed = s.pressed := rfl
@[simp] theorem State.advance_pending : s.advance.pending = s.pending := rfl
@[simp] theorem State.advance_faulted : s.advance.faulted = s.faulted := rfl
@[simp] theorem State.advance_draws : s.advance.draws = s.draws := rfl
@[simp] theorem State.advance_params : s.advance.params = s.params := rfl

/-! ### `markFault` -/

@[simp] theorem State.markFault_mem (f : ModelFault) : (s.markFault f).mem = s.mem := rfl
@[simp] theorem State.markFault_v (f : ModelFault) : (s.markFault f).v = s.v := rfl
@[simp] theorem State.markFault_idx (f : ModelFault) : (s.markFault f).idx = s.idx := rfl
@[simp] theorem State.markFault_pc (f : ModelFault) : (s.markFault f).pc = s.pc := rfl
@[simp] theorem State.markFault_sp (f : ModelFault) : (s.markFault f).sp = s.sp := rfl
@[simp] theorem State.markFault_stack (f : ModelFault) : (s.markFault f).stack = s.stack := rfl
@[simp] theorem State.markFault_dt (f : ModelFault) : (s.markFault f).dt = s.dt := rfl
@[simp] theorem State.markFault_st (f : ModelFault) : (s.markFault f).st = s.st := rfl
@[simp] theorem State.markFault_paused (f : ModelFault) : (s.markFault f).paused = s.paused := rfl
@[simp] theorem State.markFault_fb (f : ModelFault) : (s.markFault f).fb = s.fb := rfl
@[simp] theorem State.markFault_pressed (f : ModelFault) : (s.markFault f).pressed = s.pressed := rfl
@[simp] theorem State.markFault_pending (f : ModelFault) : (s.markFault f).pending = s.pending := rfl
@[simp] theorem State.markFault_faulted (f : ModelFault) : (s.markFault f).faulted = some f := rfl
@[simp] theorem State.markFault_draws (f : ModelFault) : (s.markFault f).draws = s.draws := rfl
@[simp] theorem State.markFault_params (f : ModelFault) : (s.markFault f).params = s.params := rfl

/-! ### `setByte` -/

theorem State.setByte_mem (a : Nat) (b : Byte) : (s.setByte a b).mem = memSet s.params.font s.mem a b := rfl
@[simp] theorem State.setByte_v (a : Nat) (b : Byte) : (s.setByte a b).v = s.v := rfl
@[simp] theorem State.setByte_idx (a : Nat) (b : Byte) : (s.setByte a b).idx = s.idx := rfl
@[simp] theorem State.setByte_pc (a : Nat) (b : Byte) : (s.setByte a b).pc = s.pc := rfl
@[simp] theorem State.setByte_sp (a : Nat) (b : Byte) : (s.setByte a b).sp = s.sp := rfl
@[simp] theorem State.setByte_stack (a : Nat) (b : Byte) : (s.setByte a b).stack = s.stack := rfl
@[simp] theorem State.setByte_dt (a : Nat) (b : Byte) : (s.setByte a b).dt = s.dt := rfl
@[simp] theorem State.setByte_st (a : Nat) (b : Byte) : (s.setByte a b).st = s.st := rfl
@[simp] theorem State.setByte_paused (a : Nat) (b : Byte) : (s.setByte a b).paused = s.paused := rfl
@[simp] theorem State.setByte_fb (a : Nat) (b : Byte) : (s.setByte a b).fb = s.fb := rfl
@[simp] theorem State.setByte_pressed (a : Nat) (b : Byte) : (s.setByte a b).pressed = s.pressed := rfl
@[simp] theorem State.setByte_pending (a : Nat) (b : Byte) : (s.setByte a b).pending = s.pending := rfl
@[simp] theorem State.setByte_faulted (a : Nat) (b : Byte) : (s.setByte a b).faulted = s.faulted := rfl
@[simp] theorem State.setByte_draws (a : Nat) (b : Byte) : (s.setByte a b).draws = s.draws := rfl
@[simp] theorem State.setByte_params (a : Nat) (b : Byte) : (s.setByte a b).params = s.params := rfl

/-! ### `setFb` -/

@[simp] theorem State.setFb_mem (g : Framebuffer) : (s.setFb g).mem = s.mem := rfl
@[simp] theorem State.setFb_v (g : Framebuffer) : (s.setFb g).v = s.v := rfl
@[simp] theorem State.setFb_idx (g : Framebuffer) : (s.setFb g).idx = s.idx := rfl
@[simp] theorem State.setFb_pc (g : Framebuffer) : (s.setFb g).pc = s.pc := rfl
@[simp] theorem State.setFb_sp (g : Framebuffer) : (s.setFb g).sp = s.sp := rfl
@[simp] theorem State.setFb_stack (g : Framebuffer) : (s.setFb g).stack = s.stack := rfl
@[simp] theorem State.setFb_dt (g : Framebuffer) : (s.setFb g).dt = s.dt := rfl
@[simp] theorem State.setFb_st (g : Framebuffer) : (s.setFb g).st = s.st := rfl
@[simp] theorem State.setFb_paused (g : Framebuffer) : (s.setFb g).paused = s.paused := rfl
@[simp] theorem State.setFb_fb (g : Framebuffer) : (s.setFb g).fb = g := rfl
@[simp] theorem State.setFb_pressed (g : Framebuffer) : (s.setFb g).pressed = s.pressed := rfl
@[simp] theorem State.setFb_pending (g : Framebuffer) : (s.setFb g).pending = s.pending := rfl
@[simp] theorem State.setFb_faulted (g : Framebuffer) : (s.setFb g).faulted = s.faulted := rfl
@[simp] theorem State.setFb_draws (g : Framebuffer) : (s.setFb g).draws = s.draws := rfl
@[simp] theorem State.setFb_params (g : Framebuffer) : (s.setFb g).params = s.params := rfl

/-! ### `setOnKeyPress` -/

@[simp] theorem State.setOnKeyPress_mem (x : Reg) : (s.setOnKeyPress x).mem = s.mem := rfl
@[simp] theorem State.setOnKeyPress_v (x : Reg) : (s.setOnKeyPress x).v = s.v := rfl
@[simp] theorem State.setOnKeyPress_idx (x : Reg) : (s.setOnKeyPress x).idx = s.idx := rfl
@[simp] theorem State.setOnKeyPress_pc (x : Reg) : (s.setOnKeyPress x).pc = s.pc := rfl
@[simp] theorem State.setOnKeyPress_sp (x : Reg) : (s.setOnKeyPress x).sp = s.sp := rfl
@[simp] theorem State.setOnKeyPress_stack (x : Reg) : (s.setOnKeyPress x).stack = s.stack := rfl
@[simp] theorem State.setOnKeyPress_dt (x : Reg) : (s.setOnKeyPress x).dt = s.dt := rfl
@[simp] theorem State.setOnKeyPress_st (x : Reg) : (s.setOnKeyPress x).st = s.st := rfl
@[simp] theorem State.setOnKeyPress_paused (x : Reg) : (s.setOnKeyPress x).paused = s.paused := rfl
@[simp] theorem State.setOnKeyPress_fb (x : Reg) : (s.setOnKeyPress x).fb = s.fb := rfl
@[simp] theorem State.setOnKeyPress_pressed (x : Reg) : (s.setOnKeyPress x).pressed = s.pressed := rfl
@[simp] theorem State.setOnKeyPress_pending (x : Reg) : (s.setOnKeyPress x).pending = some x := rfl
@[simp] theorem State.setOnKeyPress_faulted (x : Reg) : (s.setOnKeyPress x).faulted = s.faulted := rfl
@[simp] theorem State.setOnKeyPress_draws (x : Reg) : (s.setOnKeyPress x).draws = s.draws := rfl
@[simp] theorem State.setOnKeyPress_params (x : Reg) : (s.setOnKeyPress x).params = s.params := rfl

/-! ### `setPaused` -/

@[simp] theorem State.setPaused_mem (b : Bool) : (s.setPaused b).mem = s.mem := rfl
@[simp] theorem State.setPaused_v (b : Bool) : (s.setPaused b).v = s.v := rfl
@[simp] theorem State.setPaused_idx (b : Bool) : (s.setPaused b).idx = s.idx := rfl
@[simp] theorem State.setPaused_pc (b : Bool) : (s.setPaused b).pc = s.pc := rfl
@[simp] theorem State.setPaused_sp (b : Bool) : (s.setPaused b).sp = s.sp := rfl
@[simp] theorem State.setPaused_stack (b : Bool) : (s.setPaused b).stack = s.stack := rfl
@[simp] theorem State.setPaused_dt (b : Bool) : (s.setPaused b).dt = s.dt := rfl
@[simp] theorem State.setPaused_st (b : Bool) : (s.setPaused b).st = s.st := rfl
@[simp] theorem State.setPaused_paused (b : Bool) : (s.setPaused b).paused = b := rfl
@[simp] theorem State.setPaused_fb (b : Bool) : (s.setPaused b).fb = s.fb := rfl
@[simp] theorem State.setPaused_pressed (b : Bool) : (s.setPaused b).pressed = s.pressed := rfl
@[simp] theorem State.setPaused_pending (b : Bool) : (s.setPaused b).pending = s.pending := rfl
@[simp] theorem State.setPaused_faulted (b : Bool) : (s.setPaused b).faulted = s.faulted := rfl
@[simp] theorem State.setPaused_draws (b : Bool) : (s.setPaused b).draws = s.draws := rfl
@[simp] theorem State.setPaused_params (b : Bool) : (s.setPaused b).params = s.params := rfl

/-! ### `clearPending` -/

@[simp] theorem State.clearPending_mem : s.clearPending.mem = s.mem := rfl
@[simp] theorem State.clearPending_v : s.clearPending.v = s.v := rfl
@[simp] theorem State.clearPending_idx : s.clearPending.idx = s.idx := rfl
@[simp] theorem State.clearPending_pc : s.clearPending.pc = s.pc := rfl
@[simp] theorem State.clearPending_sp : s.clearPending.sp = s.sp := rfl
@[simp] theorem State.clearPending_stack : s.clearPending.stack = s.stack := rfl
@[simp] theorem State.clearPending_dt : s.clearPending.dt = s.dt := rfl
@[simp] theorem State.clearPending_st : s.clearPending.st = s.st := rfl
@[simp] theorem State.clearPending_paused : s.clearPending.paused = s.paused := rfl
@[simp] theorem State.clearPending_fb : s.clearPending.fb = s.fb := rfl
@[simp] theorem State.clearPending_pressed : s.clearPending.pressed = s.pressed := rfl
@[simp] theorem State.clearPending_pending : s.clearPending.pending = none := rfl
@[simp] theorem State.clearPending_faulted : s.clearPending.faulted = s.faulted := rfl
@[simp] theorem State.clearPending_draws : s.clearPending.draws = s.draws := rfl
@[simp] theorem State.clearPending_params : s.clearPending.params = s.params := rfl

/-! ### `addKey` -/

@[simp] theorem State.addKey_mem (k : Nibble) : (s.addKey k).mem = s.mem := rfl
@[simp] theorem State.addKey_v (k : Nibble) : (s.addKey k).v = s.v := rfl
@[simp] theorem State.addKey_idx (k : Nibble) : (s.addKey k).idx = s.idx := rfl
@[simp] theorem State.addKey_pc (k : Nibble) : (s.addKey k).pc = s.pc := rfl
@[simp] theorem State.addKey_sp (k : Nibble) : (s.addKey k).sp = s.sp := rfl
@[simp] theorem State.addKey_stack (k : Nibble) : (s.addKey k).stack = s.stack := rfl
@[simp] theorem State.addKey_dt (k : Nibble) : (s.addKey k).dt = s.dt := rfl
@[simp] theorem State.addKey_st (k : Nibble) : (s.addKey k).st = s.st := rfl
@[simp] theorem State.addKey_paused (k : Nibble) : (s.addKey k).paused = s.paused := rfl
@[simp] theorem State.addKey_fb (k : Nibble) : (s.addKey k).fb = s.fb := rfl
@[simp] theorem State.addKey_pressed (k : Nibble) : (s.addKey k).pressed = s.pressed ||| BitVec.twoPow 16 k.toNat := rfl
@[simp] theorem State.addKey_pending (k : Nibble) : (s.addKey k).pending = s.pending := rfl
@[simp] theorem State.addKey_faulted (k : Nibble) : (s.addKey k).faulted = s.faulted := rfl
@[simp] theorem State.addKey_draws (k : Nibble) : (s.addKey k).draws = s.draws := rfl
@[simp] theorem State.addKey_params (k : Nibble) : (s.addKey k).params = s.params := rfl

/-! ### `removeKey` -/

@[simp] theorem State.removeKey_mem (k : Nibble) : (s.removeKey k).mem = s.mem := rfl
@[simp] theorem State.removeKey_v (k : Nibble) : (s.removeKey k).v = s.v := rfl
@[simp] theorem State.removeKey_idx (k : Nibble) : (s.removeKey k).idx = s.idx := rfl
@[simp] theorem State.removeKey_pc (k : Nibble) : (s.removeKey k).pc = s.pc := rfl
@[simp] theorem State.removeKey_sp (k : Nibble) : (s.removeKey k).sp = s.sp := rfl
@[simp] theorem State.removeKey_stack (k : Nibble) : (s.removeKey k).stack = s.stack := rfl
@[simp] theorem State.removeKey_dt (k : Nibble) : (s.removeKey k).dt = s.dt := rfl
@[simp] theorem State.removeKey_st (k : Nibble) : (s.removeKey k).st = s.st := rfl
@[simp] theorem State.removeKey_paused (k : Nibble) : (s.removeKey k).paused = s.paused := rfl
@[simp] theorem State.removeKey_fb (k : Nibble) : (s.removeKey k).fb = s.fb := rfl
@[simp] theorem State.removeKey_pressed (k : Nibble) : (s.removeKey k).pressed = s.pressed &&& ~~~ BitVec.twoPow 16 k.toNat := rfl
@[simp] theorem State.removeKey_pending (k : Nibble) : (s.removeKey k).pending = s.pending := rfl
@[simp] theorem State.removeKey_faulted (k : Nibble) : (s.removeKey k).faulted = s.faulted := rfl
@[simp] theorem State.removeKey_draws (k : Nibble) : (s.removeKey k).draws = s.draws := rfl
@[simp] theorem State.removeKey_params (k : Nibble) : (s.removeKey k).params = s.params := rfl

/-! ### `decTimers` -/

@[simp] theorem State.decTimers_mem : s.decTimers.mem = s.mem := rfl
@[simp] theorem State.decTimers_v : s.decTimers.v = s.v := rfl
@[simp] theorem State.decTimers_idx : s.decTimers.idx = s.idx := rfl
@[simp] theorem State.decTimers_pc : s.decTimers.pc = s.pc := rfl
@[simp] theorem State.decTimers_sp : s.decTimers.sp = s.sp := rfl
@[simp] theorem State.decTimers_stack : s.decTimers.stack = s.stack := rfl
@[simp] theorem State.decTimers_dt : s.decTimers.dt = decTimer s.dt := rfl
@[simp] theorem State.decTimers_st : s.decTimers.st = decTimer s.st := rfl
@[simp] theorem State.decTimers_paused : s.decTimers.paused = s.paused := rfl
@[simp] theorem State.decTimers_fb : s.decTimers.fb = s.fb := rfl
@[simp] theorem State.decTimers_pressed : s.decTimers.pressed = s.pressed := rfl
@[simp] theorem State.decTimers_pending : s.decTimers.pending = s.pending := rfl
@[simp] theorem State.decTimers_faulted : s.decTimers.faulted = s.faulted := rfl
@[simp] theorem State.decTimers_draws : s.decTimers.draws = s.draws := rfl
@[simp] theorem State.decTimers_params : s.decTimers.params = s.params := rfl

/-! ### `countDraw` -/

@[simp] theorem State.countDraw_mem : s.countDraw.mem = s.mem := rfl
@[simp] theorem State.countDraw_v : s.countDraw.v = s.v := rfl
@[simp] theorem State.countDraw_idx : s.countDraw.idx = s.idx := rfl
@[simp] theorem State.countDraw_pc : s.countDraw.pc = s.pc := rfl
@[simp] theorem State.countDraw_sp : s.countDraw.sp = s.sp := rfl
@[simp] theorem State.countDraw_stack : s.countDraw.stack = s.stack := rfl
@[simp] theorem State.countDraw_dt : s.countDraw.dt = s.dt := rfl
@[simp] theorem State.countDraw_st : s.countDraw.st = s.st := rfl
@[simp] theorem State.countDraw_paused : s.countDraw.paused = s.paused := rfl
@[simp] theorem State.countDraw_fb : s.countDraw.fb = s.fb := rfl
@[simp] theorem State.countDraw_pressed : s.countDraw.pressed = s.pressed := rfl
@[simp] theorem State.countDraw_pending : s.countDraw.pending = s.pending := rfl
@[simp] theorem State.countDraw_faulted : s.countDraw.faulted = s.faulted := rfl
@[simp] theorem State.countDraw_draws : s.countDraw.draws = s.draws + 1 := rfl
@[simp] theorem State.countDraw_params : s.countDraw.params = s.params := rfl

end Sys2Proof.Machine
end

