-- ==== Sys2Proof/Laws/ViewFrames.lean ====
section
/-! SUPPORT. What each update of the state does to the views proofs use instead of the raw fields: a register, a stack slot,
a byte of memory, a key, the data base. The updates that change a view are in Laws/Views.lean. -/

namespace Sys2Proof.Machine

variable (s : State)

@[simp] theorem State.slot_setReg (x : Reg) (b : Byte) (i : Fin 16) : (s.setReg x b).slot i = s.slot i := rfl
@[simp] theorem State.byteAt_setReg (x : Reg) (b : Byte) (c : Nat) : (s.setReg x b).byteAt c = s.byteAt c := rfl
@[simp] theorem State.isPressed_setReg (x : Reg) (b : Byte) (c : Byte) : (s.setReg x b).isPressed c = s.isPressed c := rfl
@[simp] theorem State.dataBase_setReg (x : Reg) (b : Byte) : (s.setReg x b).dataBase = s.dataBase := rfl
@[simp] theorem State.memRead_setReg (x : Reg) (b : Byte) (c : Nat) : (s.setReg x b).memRead c = s.memRead c := rfl
@[simp] theorem State.fetch_setReg (x : Reg) (b : Byte) : (s.setReg x b).fetch = s.fetch := rfl

@[simp] theorem State.reg_setIdx (w : Word) (y : Reg) : (s.setIdx w).reg y = s.reg y := rfl
@[simp] theorem State.slot_setIdx (w : Word) (i : Fin 16) : (s.setIdx w).slot i = s.slot i := rfl
@[simp] theorem State.byteAt_setIdx (w : Word) (c : Nat) : (s.setIdx w).byteAt c = s.byteAt c := rfl
@[simp] theorem State.isPressed_setIdx (w : Word) (c : Byte) : (s.setIdx w).isPressed c = s.isPressed c := rfl
@[simp] theorem State.memRead_setIdx (w : Word) (c : Nat) : (s.setIdx w).memRead c = s.memRead c := rfl
@[simp] theorem State.fetch_setIdx (w : Word) : (s.setIdx w).fetch = s.fetch := rfl

@[simp] theorem State.reg_setPc (w : Word) (y : Reg) : (s.setPc w).reg y = s.reg y := rfl
@[simp] theorem State.slot_setPc (w : Word) (i : Fin 16) : (s.setPc w).slot i = s.slot i := rfl
@[simp] theorem State.byteAt_setPc (w : Word) (c : Nat) : (s.setPc w).byteAt c = s.byteAt c := rfl
@[simp] theorem State.isPressed_setPc (w : Word) (c : Byte) : (s.setPc w).isPressed c = s.isPressed c := rfl
@[simp] theorem State.dataBase_setPc (w : Word) : (s.setPc w).dataBase = s.dataBase := rfl
@[simp] theorem State.memRead_setPc (w : Word) (c : Nat) : (s.setPc w).memRead c = s.memRead c := rfl

@[simp] theorem State.reg_setSp (b : Byte) (y : Reg) : (s.setSp b).reg y = s.reg y := rfl
@[simp] theorem State.slot_setSp (b : Byte) (i : Fin 16) : (s.setSp b).slot i = s.slot i := rfl
@[simp] theorem State.byteAt_setSp (b : Byte) (c : Nat) : (s.setSp b).byteAt c = s.byteAt c := rfl
@[simp] theorem State.isPressed_setSp (b : Byte) (c : Byte) : (s.setSp b).isPressed c = s.isPressed c := rfl
@[simp] theorem State.dataBase_setSp (b : Byte) : (s.setSp b).dataBase = s.dataBase := rfl
@[simp] theorem State.memRead_setSp (b : Byte) (c : Nat) : (s.setSp b).memRead c = s.memRead c := rfl
@[simp] theorem State.fetch_setSp (b : Byte) : (s.setSp b).fetch = s.fetch := rfl

@[simp] theorem State.reg_setDt (b : Byte) (y : Reg) : (s.setDt b).reg y = s.reg y := rfl
@[simp] theorem State.slot_setDt (b : Byte) (i : Fin 16) : (s.setDt b).slot i = s.slot i := rfl
@[simp] theorem State.byteAt_setDt (b : Byte) (c : Nat) : (s.setDt b).byteAt c = s.byteAt c := rfl
@[simp] theorem State.isPressed_setDt (b : Byte) (c : Byte) : (s.setDt b).isPressed c = s.isPressed c := rfl
@[simp] theorem State.dataBase_setDt (b : Byte) : (s.setDt b).dataBase = s.dataBase := rfl
@[simp] theorem State.memRead_setDt (b : Byte) (c : Nat) : (s.setDt b).memRead c = s.memRead c := rfl
@[simp] theorem State.fetch_setDt (b : Byte) : (s.setDt b).fetch = s.fetch := rfl

@[simp] theorem State.reg_setSt (b : Byte) (y : Reg) : (s.setSt b).reg y = s.reg y := rfl
@[simp] theorem State.slot_setSt (b : Byte) (i : Fin 16) : (s.setSt b).slot i = s.slot i := rfl
@[simp] theorem State.byteAt_setSt (b : Byte) (c : Nat) : (s.setSt b).byteAt c = s.byteAt c := rfl
@[simp] theorem State.isPressed_setSt (b : Byte) (c : Byte) : (s.setSt b).isPressed c = s.isPressed c := rfl
@[simp] theorem State.dataBase_setSt (b : Byte) : (s.setSt b).dataBase = s.dataBase := rfl
@[simp] theorem State.memRead_setSt (b : Byte) (c : Nat) : (s.setSt b).memRead c = s.memRead c := rfl
@[simp] theorem State.fetch_setSt (b : Byte) : (s.setSt b).fetch = s.fetch := rfl

@[simp] theorem State.reg_setSlot (j : Fin 16) (w : Word) (y : Reg) : (s.setSlot j w).reg y = s.reg y := rfl
@[simp] theorem State.byteAt_setSlot (j : Fin 16) (w : Word) (c : Nat) : (s.setSlot j w).byteAt c = s.byteAt c := rfl
@[simp] theorem State.isPressed_setSlot (j : Fin 16) (w : Word) (c : Byte) : (s.setSlot j w).isPressed c = s.isPressed c := rfl
@[simp] theorem State.dataBase_setSlot (j : Fin 16) (w : Word) : (s.setSlot j w).dataBase = s.dataBase := rfl
@[simp] theorem State.memRead_setSlot (j : Fin 16) (w : Word) (c : Nat) : (s.setSlot j w).memRead c = s.memRead c := rfl
@[simp] theorem State.fetch_setSlot (j : Fin 16) (w : Word) : (s.setSlot j w).fetch = s.fetch := rfl

@[simp] theorem State.reg_advance (y : Reg) : s.advance.reg y = s.reg y := rfl
@[simp] theorem State.slot_advance (i : Fin 16) : s.advance.slot i = s.slot i := rfl
@[simp] theorem State.byteAt_advance (c : Nat) : s.advance.byteAt c = s.byteAt c := rfl
@[simp] theorem State.isPressed_advance (c : Byte) : s.advance.isPressed c = s.isPressed c := rfl
@[simp] theorem State.dataBase_advance : s.advance.dataBase = s.dataBase := rfl
@[simp] theorem State.memRead_advance (c : Nat) : s.advance.memRead c = s.memRead c := rfl

@[simp] theorem State.reg_markFault (f : ModelFault) (y : Reg) : (s.markFault f).reg y = s.reg y := rfl
@[simp] theorem State.slot_markFault (f : ModelFault) (i : Fin 16) : (s.markFault f).slot i = s.slot i := rfl
@[simp] theorem State.byteAt_markFault (f : ModelFault) (c : Nat) : (s.markFault f).byteAt c = s.byteAt c := rfl
@[simp] theorem State.isPressed_markFault (f : ModelFault) (c : Byte) : (s.markFault f).isPressed c = s.isPressed c := rfl
@[simp] theorem State.dataBase_markFault (f : ModelFault) : (s.markFault f).dataBase = s.dataBase := rfl
@[simp] theorem State.memRead_markFault (f : ModelFault) (c : Nat) : (s.markFault f).memRead c = s.memRead c := rfl
@[simp] theorem State.fetch_markFault (f : ModelFault) : (s.markFault f).fetch = s.fetch := rfl

@[simp] theorem State.reg_setByte (a : Nat) (b : Byte) (y : Reg) : (s.setByte a b).reg y = s.reg y := rfl
@[simp] theorem State.slot_setByte (a : Nat) (b : Byte) (i : Fin 16) : (s.setByte a b).slot i = s.slot i := rfl
@[simp] theorem State.isPressed_setByte (a : Nat) (b : Byte) (c : Byte) : (s.setByte a b).isPressed c = s.isPressed c := rfl
@[simp] theorem State.dataBase_setByte (a : Nat) (b : Byte) : (s.setByte a b).dataBase = s.dataBase := rfl

@[simp] theorem State.reg_setFb (g : Framebuffer) (y : Reg) : (s.setFb g).reg y = s.reg y := rfl
@[simp] theorem State.slot_setFb (g : Framebuffer) (i : Fin 16) : (s.setFb g).slot i = s.slot i := rfl
@[simp] theorem State.byteAt_setFb (g : Framebuffer) (c : Nat) : (s.setFb g).byteAt c = s.byteAt c := rfl
@[simp] theorem State.isPressed_setFb (g : Framebuffer) (c : Byte) : (s.setFb g).isPressed c = s.isPressed c := rfl
@[simp] theorem State.dataBase_setFb (g : Framebuffer) : (s.setFb g).dataBase = s.dataBase := rfl
@[simp] theorem State.memRead_setFb (g : Framebuffer) (c : Nat) : (s.setFb g).memRead c = s.memRead c := rfl
@[simp] theorem State.fetch_setFb (g : Framebuffer) : (s.setFb g).fetch = s.fetch := rfl

@[simp] theorem State.reg_setOnKeyPress (x : Reg) (y : Reg) : (s.setOnKeyPress x).reg y = s.reg y := rfl
@[simp] theorem State.slot_setOnKeyPress (x : Reg) (i : Fin 16) : (s.setOnKeyPress x).slot i = s.slot i := rfl
@[simp] theorem State.byteAt_setOnKeyPress (x : Reg) (c : Nat) : (s.setOnKeyPress x).byteAt c = s.byteAt c := rfl
@[simp] theorem State.isPressed_setOnKeyPress (x : Reg) (c : Byte) : (s.setOnKeyPress x).isPressed c = s.isPressed c := rfl
@[simp] theorem State.dataBase_setOnKeyPress (x : Reg) : (s.setOnKeyPress x).dataBase = s.dataBase := rfl
@[simp] theorem State.memRead_setOnKeyPress (x : Reg) (c : Nat) : (s.setOnKeyPress x).memRead c = s.memRead c := rfl
@[simp] theorem State.fetch_setOnKeyPress (x : Reg) : (s.setOnKeyPress x).fetch = s.fetch := rfl

@[simp] theorem State.reg_setPaused (b : Bool) (y : Reg) : (s.setPaused b).reg y = s.reg y := rfl
@[simp] theorem State.slot_setPaused (b : Bool) (i : Fin 16) : (s.setPaused b).slot i = s.slot i := rfl
@[simp] theorem State.byteAt_setPaused (b : Bool) (c : Nat) : (s.setPaused b).byteAt c = s.byteAt c := rfl
@[simp] theorem State.isPressed_setPaused (b : Bool) (c : Byte) : (s.setPaused b).isPressed c = s.isPressed c := rfl
@[simp] theorem State.dataBase_setPaused (b : Bool) : (s.setPaused b).dataBase = s.dataBase := rfl
@[simp] theorem State.memRead_setPaused (b : Bool) (c : Nat) : (s.setPaused b).memRead c = s.memRead c := rfl
@[simp] theorem State.fetch_setPaused (b : Bool) : (s.setPaused b).fetch = s.fetch := rfl

@[simp] theorem State.reg_clearPending (y : Reg) : s.clearPending.reg y = s.reg y := rfl
@[simp] theorem State.slot_clearPending (i : Fin 16) : s.clearPending.slot i = s.slot i := rfl
@[simp] theorem State.byteAt_clearPending (c : Nat) : s.clearPending.byteAt c = s.byteAt c := rfl
@[simp] theorem State.isPressed_clearPending (c : Byte) : s.clearPending.isPressed c = s.isPressed c := rfl
@[simp] theorem State.dataBase_clearPending : s.clearPending.dataBase = s.dataBase := rfl
@[simp] theorem State.memRead_clearPending (c : Nat) : s.clearPending.memRead c = s.memRead c := rfl
@[simp] theorem State.fetch_clearPending : s.clearPending.fetch = s.fetch := rfl

@[simp] theorem State.reg_addKey (k : Nibble) (y : Reg) : (s.addKey k).reg y = s.reg y := rfl
@[simp] theorem State.slot_addKey (k : Nibble) (i : Fin 16) : (s.addKey k).slot i = s.slot i := rfl
@[simp] theorem State.byteAt_addKey (k : Nibble) (c : Nat) : (s.addKey k).byteAt c = s.byteAt c := rfl
@[simp] theorem State.dataBase_addKey (k : Nibble) : (s.addKey k).dataBase = s.dataBase := rfl
@[simp] theorem State.memRead_addKey (k : Nibble) (c : Nat) : (s.addKey k).memRead c = s.memRead c := rfl
@[simp] theorem State.fetch_addKey (k : Nibble) : (s.addKey k).fetch = s.fetch := rfl

@[simp] theorem State.reg_removeKey (k : Nibble) (y : Reg) : (s.removeKey k).reg y = s.reg y := rfl
@[simp] theorem State.slot_removeKey (k : Nibble) (i : Fin 16) : (s.removeKey k).slot i = s.slot i := rfl
@[simp] theorem State.byteAt_removeKey (k : Nibble) (c : Nat) : (s.removeKey k).byteAt c = s.byteAt c := rfl
@[simp] theorem State.dataBase_removeKey (k : Nibble) : (s.removeKey k).dataBase = s.dataBase := rfl
@[simp] theorem State.memRead_removeKey (k : Nibble) (c : Nat) : (s.removeKey k).memRead c = s.memRead c := rfl
@[simp] theorem State.fetch_removeKey (k : Nibble) : (s.removeKey k).fetch = s.fetch := rfl

@[simp] theorem State.reg_decTimers (y : Reg) : s.decTimers.reg y = s.reg y := rfl
@[simp] theorem State.slot_decTimers (i : Fin 16) : s.decTimers.slot i = s.slot i := rfl
@[simp] theorem State.byteAt_decTimers (c : Nat) : s.decTimers.byteAt c = s.byteAt c := rfl
@[simp] theorem State.isPressed_decTimers (c : Byte) : s.decTimers.isPressed c = s.isPressed c := rfl
@[simp] theorem State.dataBase_decTimers : s.decTimers.dataBase = s.dataBase := rfl
@[simp] theorem State.memRead_decTimers (c : Nat) : s.decTimers.memRead c = s.memRead c := rfl
@[simp] theorem State.fetch_decTimers : s.decTimers.fetch = s.fetch := rfl

@[simp] theorem State.reg_countDraw (y : Reg) : s.countDraw.reg y = s.reg y := rfl
@[simp] theorem State.slot_countDraw (i : Fin 16) : s.countDraw.slot i = s.slot i := rfl
@[simp] theorem State.byteAt_countDraw (c : Nat) : s.countDraw.byteAt c = s.byteAt c := rfl
@[simp] theorem State.isPressed_countDraw (c : Byte) : s.countDraw.isPressed c = s.isPressed c := rfl
@[simp] theorem State.dataBase_countDraw : s.countDraw.dataBase = s.dataBase := rfl
@[simp] theorem State.memRead_countDraw (c : Nat) : s.countDraw.memRead c = s.memRead c := rfl
@[simp] theorem State.fetch_countDraw : s.countDraw.fetch = s.fetch := rfl

end Sys2Proof.Machine
end

