-- ==== Sys2Proof/Laws/Views.lean ====
section
/-! SUPPORT. What each update does to the view it changes: registers, stack slots, bytes of memory, keys, pixels, and what
those views are after reset. -/

namespace Sys2Proof.Machine

/-! ### Registers -/

theorem State.reg_setReg (s : State) (x y : Reg) (b : Byte) :
    (s.setReg x b).reg y = if y = x then b else s.reg y := by
  unfold State.reg State.setReg
  rw [Vector.getElem_set]
  by_cases h : y = x
  · simp [h]
  · have : ¬ x.toNat = y.toNat := fun e => h (BitVec.eq_of_toNat_eq e.symm)
    simp [h, this]

@[simp] theorem State.reg_setReg_self (s : State) (x : Reg) (b : Byte) : (s.setReg x b).reg x = b := by
  simp [State.reg_setReg]

theorem State.reg_setReg_ne (s : State) {x y : Reg} (b : Byte) (h : y ≠ x) :
    (s.setReg x b).reg y = s.reg y := by
  simp [State.reg_setReg, h]

/-! ### The stack -/

theorem State.slot_setSlot (s : State) (i j : Fin 16) (w : Word) :
    (s.setSlot j w).slot i = if i = j then w else s.slot i := by
  unfold State.slot State.setSlot
  simp only [Fin.getElem_fin, Vector.getElem_set]
  by_cases h : i = j
  · simp [h]
  · have : ¬ (j : Nat) = i := fun e => h (Fin.ext e.symm)
    simp [h, this]

@[simp] theorem State.slot_setSlot_self (s : State) (j : Fin 16) (w : Word) : (s.setSlot j w).slot j = w := by
  simp [State.slot_setSlot]

/-! ### Memory lists -/

theorem memGet_erase (font : Font) (m : List Host.Cell) (a c : Nat) :
    memGet font (memErase m a) c = if c = a then resetByte font a else memGet font m c := by
  induction m with
  | nil => simp only [memErase, memGet]; split <;> simp_all
  | cons e rest ih =>
    by_cases h : e.1 = a
    · simp only [memErase, h, if_true, ih, memGet]
      split <;> simp_all [eq_comm]
    · simp only [memErase, h, if_false, memGet, ih]
      by_cases hc : e.1 = c
      · subst hc; simp [h]
      · simp [hc]

theorem memGet_insert (font : Font) (m : List Host.Cell) (a c : Nat) (b : Byte) (h : ∀ e ∈ m, e.1 ≠ a) :
    memGet font (memInsert m a b) c = if c = a then b else memGet font m c := by
  induction m with
  | nil => simp only [memInsert, memGet, eq_comm]
  | cons e rest ih =>
    have he : e.1 ≠ a := h e (by simp)
    have hr := ih (fun x hx => h x (by simp [hx]))
    simp only [memInsert]
    split
    · simp only [memGet, eq_comm]
    · simp only [memGet, hr]
      by_cases hc : e.1 = c
      · subst hc; simp [he]
      · simp [hc]

theorem mem_memErase {m : List Host.Cell} {a : Nat} {e : Host.Cell} : e ∈ memErase m a ↔ e ∈ m ∧ e.1 ≠ a := by
  induction m with
  | nil => simp [memErase]
  | cons x rest ih =>
    simp only [memErase]
    split <;> rename_i hx
    · rw [ih, List.mem_cons]
      constructor
      · rintro ⟨h1, h2⟩; exact ⟨.inr h1, h2⟩
      · rintro ⟨rfl | h1, h2⟩
        · exact absurd hx h2
        · exact ⟨h1, h2⟩
    · simp only [List.mem_cons, ih]
      constructor
      · rintro (rfl | ⟨h1, h2⟩)
        · exact ⟨.inl rfl, hx⟩
        · exact ⟨.inr h1, h2⟩
      · rintro ⟨rfl | h1, h2⟩
        · exact .inl rfl
        · exact .inr ⟨h1, h2⟩

/-- A read after a write: the byte written, or what was there elsewhere. It needs no canonical form. -/
theorem memGet_memSet (font : Font) (m : List Host.Cell) (a c : Nat) (b : Byte) :
    memGet font (memSet font m a b) c = if c = a then b else memGet font m c := by
  unfold memSet
  split <;> rename_i hb
  · rw [memGet_erase, hb]
  · rw [memGet_insert font _ a c b (fun e he => (mem_memErase.1 he).2), memGet_erase]
    split <;> rfl

theorem mem_memInsert {m : List Host.Cell} {a : Nat} {b : Byte} {e : Host.Cell} :
    e ∈ memInsert m a b ↔ e = (a, b) ∨ e ∈ m := by
  induction m with
  | nil => simp [memInsert]
  | cons x rest ih =>
    simp only [memInsert]
    split
    · simp
    · simp only [List.mem_cons, ih]; tauto

theorem risingFrom_mono {m : List Host.Cell} {lo hi : Nat} (h : lo ≤ hi) (hm : risingFrom hi m = true) :
    risingFrom lo m = true := by
  cases m with
  | nil => rfl
  | cons e rest =>
    simp only [risingFrom, Bool.and_eq_true, decide_eq_true_eq] at hm ⊢
    exact ⟨h.trans hm.1, hm.2⟩

theorem risingFrom_erase {m : List Host.Cell} {lo a : Nat} (hm : risingFrom lo m = true) :
    risingFrom lo (memErase m a) = true := by
  induction m generalizing lo with
  | nil => rfl
  | cons e rest ih =>
    simp only [risingFrom, Bool.and_eq_true, decide_eq_true_eq] at hm
    simp only [memErase]
    split
    · exact ih (risingFrom_mono (by omega) hm.2)
    · simp only [risingFrom, Bool.and_eq_true, decide_eq_true_eq]
      exact ⟨hm.1, ih hm.2⟩

theorem risingFrom_insert {m : List Host.Cell} {lo a : Nat} {b : Byte} (hm : risingFrom lo m = true) (hlo : lo ≤ a)
    (ha : ∀ e ∈ m, e.1 ≠ a) : risingFrom lo (memInsert m a b) = true := by
  induction m generalizing lo with
  | nil => simp [memInsert, risingFrom, hlo]
  | cons e rest ih =>
    simp only [risingFrom, Bool.and_eq_true, decide_eq_true_eq] at hm
    have he : e.1 ≠ a := ha e (by simp)
    simp only [memInsert]
    split <;> rename_i hlt
    · simp only [risingFrom, Bool.and_eq_true, decide_eq_true_eq]
      exact ⟨hlo, hlt, hm.2⟩
    · simp only [risingFrom, Bool.and_eq_true, decide_eq_true_eq]
      exact ⟨hm.1, ih hm.2 (by omega) (fun x hx => ha x (by simp [hx]))⟩

/-- Writing a byte at an address that exists keeps the canonical form. -/
theorem memSet_wf {font : Font} {m : List Host.Cell} (a : Nat) (b : Byte) (ha : a < memSize)
    (hm : memWf font m = true) : memWf font (memSet font m a b) = true := by
  simp only [memWf, Bool.and_eq_true, List.all_eq_true, decide_eq_true_eq] at hm ⊢
  unfold memSet
  split <;> rename_i hb
  · exact ⟨risingFrom_erase hm.1, fun e he => hm.2 e (mem_memErase.1 he).1⟩
  · refine ⟨risingFrom_insert (risingFrom_erase hm.1) (Nat.zero_le _) (fun e he => (mem_memErase.1 he).2), ?_⟩
    intro e he
    rcases mem_memInsert.1 he with rfl | he
    · exact ⟨ha, hb⟩
    · exact hm.2 e (mem_memErase.1 he).1

/-! ### Bytes of memory -/

theorem State.byteAt_setByte (s : State) (a c : Nat) (b : Byte) :
    (s.setByte a b).byteAt c = if c = a then b else s.byteAt c :=
  memGet_memSet s.params.font s.mem a c b

@[simp] theorem State.byteAt_setByte_self (s : State) (a : Nat) (b : Byte) : (s.setByte a b).byteAt a = b := by
  simp [State.byteAt_setByte]

theorem State.byteAt_setByte_ne (s : State) {a c : Nat} (b : Byte) (h : c ≠ a) :
    (s.setByte a b).byteAt c = s.byteAt c := by
  simp [State.byteAt_setByte, h]

/-! ### Keys -/

theorem State.isPressed_addKey (s : State) (k : Nibble) (c : Byte) :
    (s.addKey k).isPressed c = (decide (c.toNat = k.toNat) || s.isPressed c) := by
  unfold State.isPressed State.addKey
  rw [BitVec.getLsbD_or, BitVec.getLsbD_twoPow, Bool.or_comm]
  congr 1
  by_cases h : c.toNat = k.toNat
  · have hk : k.toNat < 16 := k.isLt
    simp [h, hk]
  · have : ¬ k.toNat = c.toNat := fun e => h e.symm
    simp [h, this]

theorem State.isPressed_removeKey (s : State) (k : Nibble) (c : Byte) :
    (s.removeKey k).isPressed c = (decide (c.toNat ≠ k.toNat) && s.isPressed c) := by
  unfold State.isPressed State.removeKey
  rw [BitVec.getLsbD_and, BitVec.getLsbD_not, BitVec.getLsbD_twoPow, Bool.and_comm]
  by_cases h : c.toNat = k.toNat
  · have := k.isLt
    simp [h]
  · have h' : ¬ k.toNat = c.toNat := fun e => h e.symm
    by_cases hc : c.toNat < 16
    · simp [h, h', hc]
    · simp [hc, BitVec.getLsbD_of_ge s.pressed c.toNat (by omega)]

/-- A code above 15 is never in the key set (R202). -/
theorem State.isPressed_of_ge (s : State) (c : Byte) (h : 16 ≤ c.toNat) : s.isPressed c = false :=
  BitVec.getLsbD_of_ge s.pressed c.toNat h

/-! ### Pixels -/

/-- A pixel is read modulo the width and the height (R30). -/
theorem pixel_mod (fb : Framebuffer) (c r : Nat) : pixel fb (c % 64) (r % 32) = pixel fb c r := by
  unfold pixel; simp only [Nat.mod_mod]

@[simp] theorem pixel_clear (c r : Nat) : pixel clearDisplay c r = false := by
  unfold pixel clearDisplay; simp

/-- `DrawPixel` answers the pixel it found (R182). -/
@[simp] theorem drawPixel_hit (fb : Framebuffer) (c r : Nat) : (drawPixel fb c r).2 = pixel fb c r := rfl

/-- `DrawPixel` flips the one pixel it names (R182). -/
theorem pixel_drawPixel (fb : Framebuffer) (c r c' r' : Nat) :
    pixel (drawPixel fb c r).1 c' r' =
      (pixel fb c' r' ^^ (decide (c' % 64 = c % 64) && decide (r' % 32 = r % 32))) := by
  unfold pixel drawPixel
  simp only [Vector.getElem_set]
  by_cases hr : r % 32 = r' % 32
  · simp only [hr, if_true, BitVec.getLsbD_xor, BitVec.getLsbD_twoPow, decide_true, Bool.and_true]
    have hc := Nat.mod_lt c (by decide : 0 < 64)
    by_cases h : c % 64 = c' % 64
    · simp [h, Nat.mod_lt]
    · have h' : ¬ c' % 64 = c % 64 := fun e => h e.symm
      simp [h, h']
  · have hr' : ¬ r' % 32 = r % 32 := fun e => hr e.symm
    simp [hr, hr']

/-! ### After reset -/

@[simp] theorem reg_resetWith (p : Params) (x : Reg) : (State.resetWith p).reg x = 0 := by
  simp [State.reg, State.resetWith]

@[simp] theorem slot_resetWith (p : Params) (j : Fin 16) : (State.resetWith p).slot j = 0 := by
  simp [State.slot, State.resetWith]

@[simp] theorem byteAt_resetWith (p : Params) (a : Nat) : (State.resetWith p).byteAt a = resetByte p.font a := rfl

@[simp] theorem pixel_resetWith (p : Params) (c r : Nat) : pixel (State.resetWith p).fb c r = false :=
  pixel_clear c r

/-- Reset memory is in its canonical form. -/
theorem memWf_resetWith (p : Params) : memWf (State.resetWith p).params.font (State.resetWith p).mem = true := rfl

end Sys2Proof.Machine
end

