-- ==== Sys2Proof/Laws/Ops.lean ====
section
/-! SUPPORT. For each shared operation over memory, stack, sprites and timers, what it can do, said once. -/

namespace Sys2Proof.Machine

/-! ### The address policy -/

@[simp] theorem eff_wrap (a : Nat) : eff .wrap a = .ok (a % 4096) := rfl

@[simp] theorem eff_clamp (a : Nat) : eff .clamp a = .ok (min a 4095) := rfl

theorem eff_fault_of_lt {a : Nat} (h : a < 4096) : eff .fault a = .ok a := by
  unfold eff; exact if_neg (by simp only [memSize]; omega)

theorem eff_fault_of_ge {a : Nat} (h : 4096 ≤ a) : eff .fault a = .error (.outOfRange a) := by
  unfold eff; exact if_pos (by simp only [memSize]; omega)

/-- An access that does not fault reaches an address that exists (R50, R53). -/
theorem eff_lt {p : OobPolicy} {a e : Nat} (h : eff p a = .ok e) : e < memSize := by
  cases p
  · simp only [eff_wrap, Except.ok.injEq] at h; simp only [memSize]; omega
  · simp only [eff_clamp, Except.ok.injEq] at h; simp only [memSize]; omega
  · by_cases ha : a < 4096
    · rw [eff_fault_of_lt ha] at h; cases h; exact ha
    · rw [eff_fault_of_ge (by omega)] at h; cases h

/-- An access faults only under P_OOB = fault, above 0xFFF, and the fault names its address. -/
theorem eff_error {p : OobPolicy} {a : Nat} {f : ModelFault} (h : eff p a = .error f) :
    p = .fault ∧ memSize ≤ a ∧ f = .outOfRange a := by
  cases p
  · cases h
  · cases h
  · by_cases ha : a < 4096
    · rw [eff_fault_of_lt ha] at h; cases h
    · rw [eff_fault_of_ge (by omega)] at h; cases h; exact ⟨rfl, by simpa [memSize] using ha, rfl⟩

/-- Every access below 4096, and every access under wrap or clamp, reaches an address. -/
theorem eff_ok_of {p : OobPolicy} {a : Nat} (h : p = .fault → a < memSize) : ∃ e, eff p a = .ok e := by
  cases p
  · exact ⟨_, rfl⟩
  · exact ⟨_, rfl⟩
  · exact ⟨a, eff_fault_of_lt (h rfl)⟩

/-! ### Reads and writes of one byte -/

theorem State.memRead_of_eff {s : State} {a e : Nat} (h : eff s.params.oob a = .ok e) :
    s.memRead a = .ok (s.byteAt e) := by
  simp only [State.memRead, h]

theorem State.memRead_cases (s : State) (a : Nat) :
    (∃ e, eff s.params.oob a = .ok e ∧ s.memRead a = .ok (s.byteAt e)) ∨
    (∃ f, eff s.params.oob a = .error f ∧ s.memRead a = .error f) := by
  unfold State.memRead
  cases h : eff s.params.oob a with
  | ok e => exact .inl ⟨e, rfl, rfl⟩
  | error f => exact .inr ⟨f, rfl, rfl⟩

theorem State.memWrite_cases (s : State) (a : Nat) (b : Byte) :
    (∃ e, eff s.params.oob a = .ok e ∧ s.memWrite a b = .ok (s.setByte e b)) ∨
    (∃ f, eff s.params.oob a = .error f ∧ s.memWrite a b = .error f) := by
  unfold State.memWrite
  cases h : eff s.params.oob a with
  | ok e => exact .inl ⟨e, rfl, rfl⟩
  | error f => exact .inr ⟨f, rfl, rfl⟩

/-! ### Stores -/

/-- A store changes memory and the fault mark, nothing else. -/
theorem storeBytes_shape (bs : List Byte) (a : Nat) (s : State) :
    ∃ m f, storeBytes bs a s = { s with mem := m, faulted := f } := by
  induction bs generalizing a s with
  | nil => exact ⟨s.mem, s.faulted, rfl⟩
  | cons b rest ih =>
    rcases s.memWrite_cases a b with ⟨e, -, h⟩ | ⟨f, -, h⟩
    · simp only [storeBytes, h]
      obtain ⟨m, f, hm⟩ := ih (a + 1) (s.setByte e b)
      exact ⟨m, f, hm⟩
    · simp only [storeBytes, h]
      exact ⟨s.mem, some f, rfl⟩

/-- A store changes no piece of state but memory and the fault mark. -/
theorem storeBytes_frame (bs : List Byte) (a : Nat) (s : State) :
    Frame s (storeBytes bs a s) [.mem, .faulted] := by
  obtain ⟨m, f, h⟩ := storeBytes_shape bs a s
  rw [h]
  intro p hp
  cases p <;> first | exact absurd (by decide) hp | exact fun _ => rfl | exact fun _ _ => rfl | rfl

@[simp] theorem storeBytes_params (bs : List Byte) (a : Nat) (s : State) :
    (storeBytes bs a s).params = s.params := by
  obtain ⟨m, f, h⟩ := storeBytes_shape bs a s
  rw [h]

/-- A store within reach does not fault. -/
theorem storeBytes_faulted (bs : List Byte) (a : Nat) (s : State) (h : InReach s.params.oob a bs.length) :
    (storeBytes bs a s).faulted = s.faulted := by
  induction bs generalizing a s with
  | nil => rfl
  | cons b rest ih =>
    simp only [InReach, List.length_cons] at h
    rcases s.memWrite_cases a b with ⟨e, -, he⟩ | ⟨f, hf, -⟩
    · simp only [storeBytes, he]
      rw [ih (a + 1) (s.setByte e b) ?_]
      · rfl
      · intro hp; right; have := h hp; omega
    · obtain ⟨hp, ha, -⟩ := eff_error hf
      have := h hp; omega

/-- A store out of reach faults at the first address above 0xFFF (R54). -/
theorem storeBytes_outOfRange (bs : List Byte) (a : Nat) (s : State) (hp : s.params.oob = .fault)
    (h : memSize < a + bs.length) (hne : bs ≠ []) :
    (storeBytes bs a s).faulted = some (.outOfRange (max a 0x1000)) := by
  induction bs generalizing a s with
  | nil => exact absurd rfl hne
  | cons b rest ih =>
    simp only [memSize, List.length_cons] at h
    rcases s.memWrite_cases a b with ⟨e, he, hw⟩ | ⟨f, hf, hw⟩
    · have ha : a < 4096 := by
        by_contra hc
        rw [hp, eff_fault_of_ge (by omega)] at he; cases he
      simp only [storeBytes, hw]
      rw [ih (a + 1) (s.setByte e b) hp (by simp only [memSize]; omega) (by rintro rfl; simp at h; omega)]
      congr 2; omega
    · obtain ⟨-, ha, rfl⟩ := eff_error hf
      simp only [storeBytes, hw, State.markFault_faulted]
      congr 2; simp only [memSize] at ha; omega

/-- The bytes a store leaves: each at the address its access reaches, the later access winning, and nothing elsewhere. It
holds also where the store faults on the way. -/
theorem storeBytes_stored (bs : List Byte) (a : Nat) (s : State) :
    StoredFrom s (storeBytes bs a s) a bs.length (fun k => bs.getD k 0) := by
  induction bs generalizing a s with
  | nil => exact ⟨fun k e hk => absurd hk (Nat.not_lt_zero k), fun _ _ => rfl⟩
  | cons b rest ih =>
    rcases s.memWrite_cases a b with ⟨e0, he0, hw⟩ | ⟨f, hf, hw⟩
    · have step : storeBytes (b :: rest) a s = storeBytes rest (a + 1) (s.setByte e0 b) := by
        simp only [storeBytes, hw]
      obtain ⟨h1, h2⟩ := ih (a + 1) (s.setByte e0 b)
      simp only [State.setByte_params] at h1 h2
      rw [step]
      constructor
      · intro k e hk he hlast
        cases k with
        | zero =>
          rw [h2 e]
          · rw [Nat.add_zero, he0] at he; cases he; simp
          · intro j hj
            have := hlast (j + 1) (by omega) (by simp only [List.length_cons]; omega)
            rwa [show a + 1 + j = a + (j + 1) by omega]
        | succ k =>
          show _ = (b :: rest).getD (k + 1) 0
          rw [List.getD_cons_succ]
          refine h1 k e (by simp only [List.length_cons] at hk; omega) ?_ ?_
          · rwa [show a + 1 + k = a + (k + 1) by omega]
          · intro j hj hj'
            have := hlast (j + 1) (by omega) (by simp only [List.length_cons]; omega)
            rwa [show a + 1 + j = a + (j + 1) by omega]
      · intro e he
        rw [h2 e]
        · refine State.byteAt_setByte_ne s b ?_
          rintro rfl
          exact he 0 (by simp) (by simpa using he0)
        · intro k hk
          have := he (k + 1) (by simp only [List.length_cons]; omega)
          rwa [show a + 1 + k = a + (k + 1) by omega]
    · obtain ⟨hp, ha, -⟩ := eff_error hf
      have step : storeBytes (b :: rest) a s = s.markFault f := by simp only [storeBytes, hw]
      rw [step]
      refine ⟨fun k e _ he => ?_, fun _ _ => rfl⟩
      rw [hp, eff_fault_of_ge (by simp only [memSize] at ha; omega)] at he; cases he

/-- A store leaves the fault mark, or marks an address out of range. -/
theorem storeBytes_mark (bs : List Byte) (a : Nat) (s : State) :
    (storeBytes bs a s).faulted = s.faulted ∨ ∃ c, (storeBytes bs a s).faulted = some (.outOfRange c) := by
  induction bs generalizing a s with
  | nil => exact .inl rfl
  | cons b rest ih =>
    rcases s.memWrite_cases a b with ⟨e, -, hw⟩ | ⟨f, hf, hw⟩
    · simp only [storeBytes, hw]; exact ih (a + 1) (s.setByte e b)
    · obtain ⟨-, -, rfl⟩ := eff_error hf
      simp only [storeBytes, hw]; exact .inr ⟨a, rfl⟩

/-- A byte read after a store is the byte stored last at what the address reaches, or the old one (R61). -/
theorem StoredFrom.readsStored {s t : State} {base len : Nat} {byte : Nat → Byte} (h : StoredFrom s t base len byte)
    (hp : t.params = s.params) {a : Nat} {b : Byte} (hb : t.memRead a = .ok b) : ReadsStored s base len byte a b := by
  rcases t.memRead_cases a with ⟨e, he, h1⟩ | ⟨f, -, h1⟩
  · rw [h1] at hb; cases hb
    rw [hp] at he
    refine ⟨fun k hk hka hlast => h.1 k e hk (hka.trans he) (fun j hj hj' => he ▸ hlast j hj hj'), fun hno => ?_⟩
    rw [State.memRead_of_eff he, h.2 e fun k hk => he ▸ hno k hk]
  · rw [h1] at hb; cases hb

/-- A store keeps memory in its canonical form. -/
theorem storeBytes_wf (bs : List Byte) (a : Nat) (s : State) (h : memWf s.params.font s.mem = true) :
    memWf s.params.font (storeBytes bs a s).mem = true := by
  induction bs generalizing a s with
  | nil => exact h
  | cons b rest ih =>
    rcases s.memWrite_cases a b with ⟨e, he, hw⟩ | ⟨f, -, hw⟩
    · simp only [storeBytes, hw]
      exact ih (a + 1) (s.setByte e b) (memSet_wf e b (eff_lt he) h)
    · simp only [storeBytes, hw]; exact h

/-! ### Loads -/

/-- A load changes registers and the fault mark, nothing else. -/
theorem loadBytes_shape (rs : List Reg) (a : Nat) (s : State) :
    ∃ v f, loadBytes rs a s = { s with v := v, faulted := f } := by
  induction rs generalizing a s with
  | nil => exact ⟨s.v, s.faulted, rfl⟩
  | cons r rest ih =>
    rcases s.memRead_cases a with ⟨e, -, h⟩ | ⟨f, -, h⟩
    · simp only [loadBytes, h]
      obtain ⟨v, f, hv⟩ := ih (a + 1) (s.setReg r (s.byteAt e))
      exact ⟨v, f, hv⟩
    · simp only [loadBytes, h]
      exact ⟨s.v, some f, rfl⟩

/-- A load changes no piece of state but registers and the fault mark. -/
theorem loadBytes_frame (rs : List Reg) (a : Nat) (s : State) :
    Frame s (loadBytes rs a s) [.v, .faulted] := by
  obtain ⟨m, f, h⟩ := loadBytes_shape rs a s
  rw [h]
  intro p hp
  cases p <;> first | exact absurd (by decide) hp | exact fun _ => rfl | exact fun _ _ => rfl | rfl

/-- A load within reach does not fault. -/
theorem loadBytes_faulted (rs : List Reg) (a : Nat) (s : State) (h : InReach s.params.oob a rs.length) :
    (loadBytes rs a s).faulted = s.faulted := by
  induction rs generalizing a s with
  | nil => rfl
  | cons r rest ih =>
    simp only [InReach, List.length_cons] at h
    rcases s.memRead_cases a with ⟨e, -, he⟩ | ⟨f, hf, -⟩
    · simp only [loadBytes, he]
      rw [ih (a + 1) (s.setReg r (s.byteAt e)) ?_]
      · rfl
      · intro hp; right; have := h hp; omega
    · obtain ⟨hp, ha, -⟩ := eff_error hf
      have := h hp; omega

/-- A load out of reach faults at the first address above 0xFFF (R54). -/
theorem loadBytes_outOfRange (rs : List Reg) (a : Nat) (s : State) (hp : s.params.oob = .fault)
    (h : memSize < a + rs.length) (hne : rs ≠ []) :
    (loadBytes rs a s).faulted = some (.outOfRange (max a 0x1000)) := by
  induction rs generalizing a s with
  | nil => exact absurd rfl hne
  | cons r rest ih =>
    simp only [memSize, List.length_cons] at h
    rcases s.memRead_cases a with ⟨e, he, hw⟩ | ⟨f, hf, hw⟩
    · have ha : a < 4096 := by
        by_contra hc
        rw [hp, eff_fault_of_ge (by omega)] at he; cases he
      simp only [loadBytes, hw]
      rw [ih (a + 1) (s.setReg r (s.byteAt e)) hp (by simp only [memSize]; omega) (by rintro rfl; simp at h; omega)]
      congr 2; omega
    · obtain ⟨-, ha, rfl⟩ := eff_error hf
      simp only [loadBytes, hw, State.markFault_faulted]
      congr 2; simp only [memSize] at ha; omega

/-- A load leaves the fault mark, or marks an address out of range. -/
theorem loadBytes_mark (rs : List Reg) (a : Nat) (s : State) :
    (loadBytes rs a s).faulted = s.faulted ∨ ∃ c, (loadBytes rs a s).faulted = some (.outOfRange c) := by
  induction rs generalizing a s with
  | nil => exact .inl rfl
  | cons r rest ih =>
    rcases s.memRead_cases a with ⟨e, -, hw⟩ | ⟨f, hf, hw⟩
    · simp only [loadBytes, hw]; exact ih (a + 1) (s.setReg r (s.byteAt e))
    · obtain ⟨-, -, rfl⟩ := eff_error hf
      simp only [loadBytes, hw]; exact .inr ⟨a, rfl⟩

/-- A register a load does not name keeps its value. -/
theorem loadBytes_reg_of_not_mem (rs : List Reg) (a : Nat) (s : State) (r : Reg) (h : r ∉ rs) :
    (loadBytes rs a s).reg r = s.reg r := by
  induction rs generalizing a s with
  | nil => rfl
  | cons q rest ih =>
    simp only [List.mem_cons, not_or] at h
    rcases s.memRead_cases a with ⟨e, -, hw⟩ | ⟨f, -, hw⟩
    · simp only [loadBytes, hw]
      rw [ih (a + 1) _ h.2, State.reg_setReg_ne s _ h.1]
    · simp only [loadBytes, hw, State.reg_markFault]

/-- The registers a load names, each once, take the bytes of the addresses reached; one whose access faults keeps its
value. -/
theorem loadBytes_reg (rs : List Reg) (a : Nat) (s : State) (hn : rs.Nodup) (k : Nat) (hk : k < rs.length) :
    (∀ e, eff s.params.oob (a + k) = .ok e → (loadBytes rs a s).reg rs[k] = s.byteAt e) ∧
    (∀ f, eff s.params.oob (a + k) = .error f → (loadBytes rs a s).reg rs[k] = s.reg rs[k]) := by
  induction rs generalizing a s k with
  | nil => exact absurd hk (Nat.not_lt_zero k)
  | cons q rest ih =>
    simp only [List.nodup_cons] at hn
    rcases s.memRead_cases a with ⟨e0, he0, hw⟩ | ⟨f0, hf0, hw⟩
    · have step : loadBytes (q :: rest) a s = loadBytes rest (a + 1) (s.setReg q (s.byteAt e0)) := by
        simp only [loadBytes, hw]
      rw [step]
      cases k with
      | zero =>
        simp only [List.getElem_cons_zero, Nat.add_zero, he0]
        refine ⟨fun e he => ?_, fun f hf => by cases hf⟩
        cases he
        rw [loadBytes_reg_of_not_mem rest _ _ q hn.1, State.reg_setReg_self]
      | succ k =>
        have hk' : k < rest.length := by simpa using hk
        have hne : rest[k] ≠ q := fun h => hn.1 (h ▸ List.getElem_mem hk')
        obtain ⟨h1, h2⟩ := ih (a + 1) (s.setReg q (s.byteAt e0)) hn.2 k hk'
        simp only [List.getElem_cons_succ, State.setReg_params, State.byteAt_setReg,
          State.reg_setReg_ne s (s.byteAt e0) hne, show a + 1 + k = a + (k + 1) by omega] at h1 h2 ⊢
        exact ⟨h1, h2⟩
    · have step : loadBytes (q :: rest) a s = s.markFault f0 := by simp only [loadBytes, hw]
      obtain ⟨hp, ha, -⟩ := eff_error hf0
      rw [step]
      refine ⟨fun e he => ?_, fun f _ => rfl⟩
      rw [hp, eff_fault_of_ge (by simp only [memSize] at ha; omega)] at he; cases he

/-! ### The register range of Fx55 and Fx65 -/

@[simp] theorem length_regsUpTo (x : Reg) : (regsUpTo x).length = x.toNat + 1 := by simp [regsUpTo]

theorem getElem_regsUpTo (x : Reg) (k : Nat) (h : k < (regsUpTo x).length) :
    (regsUpTo x)[k] = BitVec.ofNat 4 k := by simp [regsUpTo]

theorem mem_regsUpTo {x r : Reg} : r ∈ regsUpTo x ↔ r.toNat ≤ x.toNat := by
  simp only [regsUpTo, List.mem_map, List.mem_range]
  constructor
  · rintro ⟨k, hk, rfl⟩
    have := x.isLt
    simp only [BitVec.toNat_ofNat]; omega
  · intro h
    exact ⟨r.toNat, by omega, by simp⟩

theorem nodup_regsUpTo (x : Reg) : (regsUpTo x).Nodup := by
  refine List.Nodup.map_on ?_ List.nodup_range
  intro a ha b hb h
  have := x.isLt
  simp only [List.mem_range] at ha hb
  have := congrArg BitVec.toNat h
  simp only [BitVec.toNat_ofNat] at this
  omega

/-! ### The image copy -/

/-- The image copy changes memory and nothing else. -/
theorem copyImage_shape (bs : List Byte) (a : Nat) (s : State) : ∃ m, copyImage bs a s = { s with mem := m } := by
  induction bs generalizing a s with
  | nil => exact ⟨s.mem, rfl⟩
  | cons b rest ih =>
    obtain ⟨m, hm⟩ := ih (a + 1) (s.setByte a b)
    exact ⟨m, hm⟩

/-- The byte the image copy leaves at an address. -/
theorem copyImage_byteAt (bs : List Byte) (a : Nat) (s : State) (c : Nat) :
    (copyImage bs a s).byteAt c = if a ≤ c ∧ c < a + bs.length then bs.getD (c - a) 0 else s.byteAt c := by
  induction bs generalizing a s with
  | nil => simp only [copyImage, List.length_nil]; rw [if_neg (by omega)]
  | cons b rest ih =>
    simp only [copyImage, ih, State.byteAt_setByte, List.length_cons]
    by_cases h1 : c = a
    · subst h1; simp
    · by_cases h2 : a + 1 ≤ c ∧ c < a + 1 + rest.length
      · rw [if_pos h2, if_pos (by omega), show c - a = (c - (a + 1)) + 1 by omega, List.getD_cons_succ]
      · rw [if_neg h2, if_neg h1, if_neg (by omega)]

/-- Below 4096 every policy reaches the address itself (R53). -/
theorem eff_of_lt (p : OobPolicy) {a : Nat} (h : a < memSize) : eff p a = .ok a := by
  simp only [memSize] at h
  cases p
  · rw [eff_wrap, Nat.mod_eq_of_lt h]
  · rw [eff_clamp, Nat.min_eq_left (by omega)]
  · exact eff_fault_of_lt h

/-- The image copy below 4096 is a store of its bytes, whatever the policy. -/
theorem copyImage_stored (bs : List Byte) (a : Nat) (s : State) (ha : a + bs.length ≤ memSize) :
    StoredFrom s (copyImage bs a s) a bs.length (fun k => bs.getD k 0) := by
  constructor
  · intro k e hk hke _
    rw [eff_of_lt _ (by omega)] at hke
    have he : a + k = e := Except.ok.inj hke
    subst he
    rw [copyImage_byteAt, if_pos (by omega), Nat.add_sub_cancel_left]
  · intro e hno
    rw [copyImage_byteAt, if_neg]
    rintro ⟨h1, h2⟩
    obtain ⟨k, rfl⟩ := Nat.exists_eq_add_of_le h1
    exact hno k (by omega) (eff_of_lt _ (by omega))

/-- The image copy keeps the canonical form while it stays below 4096. -/
theorem copyImage_wf (bs : List Byte) (a : Nat) (s : State) (ha : a + bs.length ≤ memSize)
    (h : memWf s.params.font s.mem = true) : memWf s.params.font (copyImage bs a s).mem = true := by
  induction bs generalizing a s with
  | nil => exact h
  | cons b rest ih =>
    simp only [List.length_cons] at ha
    exact ih (a + 1) (s.setByte a b) (by omega) (memSet_wf a b (by omega) h)

/-! ### The fetch -/

/-- The fetch reads the two addresses reached, or faults at the first that is out of range. -/
theorem State.fetch_cases (s : State) :
    (∃ e e', eff s.params.oob s.pc.toNat = .ok e ∧ eff s.params.oob (s.pc.toNat + 1) = .ok e' ∧
      s.fetch = .ok (s.byteAt e, s.byteAt e')) ∨
    (s.params.oob = .fault ∧ 0xFFF ≤ s.pc.toNat ∧ s.fetch = .error (.outOfRange (max s.pc.toNat 0x1000))) := by
  unfold State.fetch
  rcases s.memRead_cases s.pc.toNat with ⟨e, he, h⟩ | ⟨f, hf, h⟩
  · rcases s.memRead_cases (s.pc.toNat + 1) with ⟨e', he', h'⟩ | ⟨f', hf', h'⟩
    · exact .inl ⟨e, e', he, he', by simp only [h, h']⟩
    · obtain ⟨hp, ha, rfl⟩ := eff_error hf'
      have : s.pc.toNat < 4096 := by
        by_contra hc
        rw [hp, eff_fault_of_ge (by omega)] at he; cases he
      simp only [memSize] at ha
      refine .inr ⟨hp, by omega, ?_⟩
      simp only [h, h']
      congr 2; omega
  · obtain ⟨hp, ha, rfl⟩ := eff_error hf
    simp only [memSize] at ha
    refine .inr ⟨hp, by omega, ?_⟩
    simp only [h]
    congr 2; omega

/-- A fetch within reach reads the two addresses reached (R92). -/
theorem State.fetch_of_inReach {s : State} (h : InReach s.params.oob s.pc.toNat 2) :
    ∃ e e', eff s.params.oob s.pc.toNat = .ok e ∧ eff s.params.oob (s.pc.toNat + 1) = .ok e' ∧
      s.fetch = .ok (s.byteAt e, s.byteAt e') := by
  rcases s.fetch_cases with h' | ⟨hp, hpc, -⟩
  · exact h'
  · have := h hp
    simp only [memSize] at this
    omega

theorem wordOfBytes_toNat (hi lo : Byte) : (wordOfBytes hi lo).toNat = hi.toNat * 256 + lo.toNat := by
  have h1 := hi.isLt
  have h2 := lo.isLt
  have : wordOfBytes hi lo = (hi ++ lo : BitVec 16) := by
    unfold wordOfBytes
    apply BitVec.eq_of_getLsbD_eq
    intro i hi'
    simp only [BitVec.getLsbD_or, BitVec.getLsbD_shiftLeft, BitVec.getLsbD_setWidth, BitVec.getLsbD_append]
    by_cases h : i < 8
    · simp [h, hi']
    · simp only [h, hi', decide_true, decide_false, Bool.not_false, Bool.true_and]
      rw [BitVec.getLsbD_of_ge lo i (by omega)]
      simp; omega
  rw [this, BitVec.toNat_append, Nat.shiftLeft_eq, ← Nat.shiftLeft_eq, ← Nat.shiftLeft_add_eq_or_of_lt h2,
    Nat.shiftLeft_eq]

/-- A word laid out as its two bytes is read back (R57). -/
theorem wordOfBytes_split (w : Word) : wordOfBytes (highByte w) (lowByte w) = w := by
  apply BitVec.eq_of_toNat_eq
  rw [wordOfBytes_toNat]
  have := w.isLt
  simp only [highByte, lowByte, BitVec.extractLsb'_toNat, Nat.shiftRight_eq_div_pow]
  omega

/-! ### The stack slot -/

theorem slotOf_mod16 (sp : Byte) : slotOf .mod16 sp = .ok ⟨sp.toNat % 16, Nat.mod_lt _ (by decide)⟩ := rfl

theorem slotOf_cases (p : StackPolicy) (sp : Byte) :
    (∃ j, slotOf p sp = .ok j ∧ j.val = sp.toNat % 16 ∧ (p = .mod16 ∨ sp.toNat < 16)) ∨
    (p = .fault ∧ 16 ≤ sp.toNat ∧ slotOf p sp = .error (.stackOutOfRange sp)) := by
  cases p
  · exact .inl ⟨_, rfl, rfl, .inl rfl⟩
  · by_cases h : sp.toNat < 16
    · exact .inl ⟨⟨sp.toNat, h⟩, by simp only [slotOf, h, dite_true], by simp [Nat.mod_eq_of_lt h], .inr h⟩
    · exact .inr ⟨rfl, by omega, by simp only [slotOf, h, dite_false]⟩

/-! ### Timers -/

theorem decTimer_toNat (t : Byte) : (decTimer t).toNat = t.toNat - 1 := by
  unfold decTimer
  split <;> rename_i h
  · subst h; rfl
  · have : t.toNat ≠ 0 := fun e => h (BitVec.eq_of_toNat_eq e)
    have := t.isLt
    rw [BitVec.toNat_sub, show (1 : Byte).toNat = 1 from rfl]; omega

/-! ### Skips -/

/-- A skip changes nothing but `PC`, and that only if it is taken. -/
theorem State.skipIf_eq (s : State) (b : Bool) : s.skipIf b = s.setPc (if b then s.pc + 2 else s.pc) := by
  cases b <;> rfl

theorem add_two_toNat (w : Word) : (w + 2).toNat = (w.toNat + 2) % 65536 := by
  rw [BitVec.toNat_add]; rfl

/-! ### Sprites -/

/-- Whether a sprite row with byte `b` drawn at `(px, py)` covers `(c, r)` with a 1 bit, among the given columns. -/
def rowCovers (b : Byte) (px py : Nat) (cols : List Nat) (c r : Nat) : Bool :=
  decide (r % 32 = py % 32) && cols.any (fun col => b.getLsbD (7 - col) && decide (c % 64 = (px + col) % 64))

/-- What drawing a list of distinct columns of one sprite row does: it flips the covered pixels, and reports a hit if one of
them was lit (R188, R190). -/
theorem foldl_drawBit (b : Byte) (px py : Nat) (cols : List Nat) (acc : Framebuffer × Bool)
    (hn : cols.Pairwise (fun i j => (px + i) % 64 ≠ (px + j) % 64)) :
    (∀ c r, pixel (cols.foldl (drawBit b px py) acc).1 c r = (pixel acc.1 c r ^^ rowCovers b px py cols c r)) ∧
    ((cols.foldl (drawBit b px py) acc).2 = true ↔
      acc.2 = true ∨ ∃ col ∈ cols, b.getLsbD (7 - col) = true ∧ pixel acc.1 (px + col) py = true) := by
  induction cols generalizing acc with
  | nil => simp [rowCovers]
  | cons k rest ih =>
    rw [List.pairwise_cons] at hn
    obtain ⟨h1, h2⟩ := ih (drawBit b px py acc k) hn.2
    simp only [List.foldl_cons]
    by_cases hb : b.getLsbD (7 - k) = true
    · have hd : drawBit b px py acc k =
          ((drawPixel acc.1 (px + k) py).1, acc.2 || (drawPixel acc.1 (px + k) py).2) := by
        simp only [drawBit, hb, if_true]
      constructor
      · intro c r
        rw [h1, hd]
        simp only [pixel_drawPixel, rowCovers, List.any_cons, hb, Bool.true_and, Bool.xor_assoc]
        congr 1
        by_cases hr : r % 32 = py % 32
        · simp only [hr, decide_true, Bool.and_true, Bool.true_and]
          by_cases hc : c % 64 = (px + k) % 64
          · have : rest.any (fun col => b.getLsbD (7 - col) && decide (c % 64 = (px + col) % 64)) = false := by
              rw [List.any_eq_false]
              intro j hj
              have := hn.1 j hj
              simp only [Bool.and_eq_true, decide_eq_true_eq, not_and]
              intro _ h
              exact this (hc ▸ h)
            simp only [hc, decide_true] at this ⊢
            simp [this]
          · simp [hc]
        · simp [hr]
      · rw [h2, hd]
        simp only [drawPixel_hit, Bool.or_eq_true, List.mem_cons, exists_eq_or_imp, hb, true_and, or_assoc]
        refine or_congr_right (or_congr_right ?_)
        refine exists_congr fun j => and_congr_right fun hj => and_congr_right fun _ => ?_
        rw [pixel_drawPixel]
        have : ¬ (px + j) % 64 = (px + k) % 64 := fun h => hn.1 j hj h.symm
        simp [this]
    · have hd : drawBit b px py acc k = acc := by simp only [drawBit, hb, Bool.false_eq_true, if_false]
      have hb' : b.getLsbD (7 - k) = false := by simpa using hb
      rw [hd] at h1 h2 ⊢
      constructor
      · intro c r
        rw [h1]
        simp only [rowCovers, List.any_cons, hb', Bool.false_and, Bool.false_or]
      · rw [h2]
        simp only [List.mem_cons, exists_eq_or_imp, hb', Bool.false_eq_true, false_and, false_or]

/-- What drawing one sprite row does (R188, R190). -/
theorem drawRow_spec (b : Byte) (px py : Nat) (acc : Framebuffer × Bool) :
    (∀ c r, pixel (drawRow b px py acc).1 c r =
      (pixel acc.1 c r ^^ rowCovers b px py [0, 1, 2, 3, 4, 5, 6, 7] c r)) ∧
    ((drawRow b px py acc).2 = true ↔
      acc.2 = true ∨ ∃ col ∈ [0, 1, 2, 3, 4, 5, 6, 7], b.getLsbD (7 - col) = true ∧ pixel acc.1 (px + col) py = true) := by
  refine foldl_drawBit b px py _ acc ?_
  simp only [List.pairwise_cons, List.mem_cons, List.not_mem_nil, or_false, List.Pairwise.nil, and_true,
    forall_eq_or_imp, forall_eq, false_implies, implies_true]
  omega

/-- Drawing rows changes the framebuffer, the registers and the fault mark, nothing else. -/
theorem drawRows_shape (px py left row : Nat) (hit : Bool) (s : State) :
    ∃ g v f, drawRows px py left row hit s = { s with fb := g, v := v, faulted := f } := by
  induction left generalizing row hit s with
  | zero => exact ⟨s.fb, _, s.faulted, rfl⟩
  | succ left ih =>
    rcases s.memRead_cases (s.dataBase + row) with ⟨e, -, h⟩ | ⟨f, -, h⟩
    · simp only [drawRows, h]
      obtain ⟨g, v, f, hg⟩ := ih (row + 1) _ (s.setFb (drawRow (s.byteAt e) px (py + row) (s.fb, hit)).1)
      exact ⟨g, v, f, hg⟩
    · simp only [drawRows, h]
      exact ⟨s.fb, s.v, some f, rfl⟩

theorem rowCovers_iff (b : Byte) (px py c r : Nat) :
    rowCovers b px py [0, 1, 2, 3, 4, 5, 6, 7] c r = true ↔
      r % 32 = py % 32 ∧ ∃ col, col < 8 ∧ b.getLsbD (7 - col) = true ∧ c % 64 = (px + col) % 64 := by
  unfold rowCovers
  simp only [Bool.and_eq_true, decide_eq_true_eq, List.any_eq_true]
  refine and_congr_right fun _ => ⟨?_, ?_⟩
  · rintro ⟨col, hm, h1, h2⟩
    refine ⟨col, ?_, h1, h2⟩
    simp only [List.mem_cons, List.not_mem_nil, or_false] at hm; omega
  · rintro ⟨col, hm, h1, h2⟩
    refine ⟨col, ?_, h1, h2⟩
    simp only [List.mem_cons, List.not_mem_nil, or_false]; omega

/-- Sprite rows `lo` to `lo + n - 1`, drawn at `(px, py)`, cover `(c, r)` with a 1 bit (R188). -/
def RowsLit (s : State) (px py lo n c r : Nat) : Prop :=
  ∃ row col b, lo ≤ row ∧ row < lo + n ∧ col < 8 ∧ s.memRead (s.dataBase + row) = .ok b ∧ b.getLsbD (7 - col) = true ∧
    (px + col) % 64 = c % 64 ∧ (py + row) % 32 = r % 32

theorem rowsLit_mod (s : State) (px py lo n c r : Nat) :
    RowsLit s px py lo n (c % 64) (r % 32) ↔ RowsLit s px py lo n c r := by
  unfold RowsLit; simp only [Nat.mod_mod]

/-- On the screen, `RowsLit` of all rows is `SpriteLit`. -/
theorem spriteLit_iff_rowsLit (s : State) (x y : Reg) (n : Nibble) {c r : Nat} (hc : c < 64) (hr : r < 32) :
    SpriteLit s x y n c r ↔ RowsLit s (s.reg x).toNat (s.reg y).toNat 0 n.toNat c r := by
  unfold SpriteLit RowsLit
  simp only [dispW, dispH, Nat.mod_eq_of_lt hc, Nat.mod_eq_of_lt hr, Nat.zero_le, true_and, Nat.zero_add]
  rfl

/-- One row is drawn, then the rest. -/
theorem drawRows_succ (px py left row : Nat) (hit : Bool) {s : State} {b : Byte}
    (h : s.memRead (s.dataBase + row) = .ok b) :
    drawRows px py (left + 1) row hit s =
      drawRows px py left (row + 1) (drawRow b px (py + row) (s.fb, hit)).2
        (s.setFb (drawRow b px (py + row) (s.fb, hit)).1) := by
  simp only [drawRows, h]

/-- What drawing rows does to the screen, also where a row's byte faults on the way; and, where every byte can be read, to
`VF`, the other registers and the fault mark. At most 16 rows, so that no two land on one screen row (R188, R190). -/
theorem drawRows_spec (px py left row : Nat) (hit : Bool) (s : State) (hle : row + left ≤ 16) :
    (∀ c r, (RowsLit s px py row left c r → pixel (drawRows px py left row hit s).fb c r = !pixel s.fb c r) ∧
      (¬ RowsLit s px py row left c r → pixel (drawRows px py left row hit s).fb c r = pixel s.fb c r)) ∧
    ((∀ k, k < left → ∃ b, s.memRead (s.dataBase + (row + k)) = .ok b) →
      (drawRows px py left row hit s).faulted = s.faulted ∧
      ∃ h : Bool, (h = true ↔ hit = true ∨ ∃ c r, RowsLit s px py row left c r ∧ pixel s.fb c r = true) ∧
      (drawRows px py left row hit s).reg VF = collisionFlag h ∧
      ∀ q, q ≠ VF → (drawRows px py left row hit s).reg q = s.reg q) := by
  induction left generalizing row hit s with
  | zero =>
    have hno : ∀ c r, ¬ RowsLit s px py row 0 c r := by
      rintro c r ⟨row', col, b, h1, h2, -⟩; omega
    refine ⟨fun c r => ⟨fun h => absurd h (hno c r), fun _ => rfl⟩, fun _ => ⟨rfl, hit, ?_, ?_, ?_⟩⟩
    · exact ⟨.inl, fun h => h.elim id fun ⟨c, r, hl, _⟩ => absurd hl (hno c r)⟩
    · simp [drawRows]
    · intro q hq; simp [drawRows, State.reg_setReg_ne _ _ hq]
  | succ left ih =>
    rcases s.memRead_cases (s.dataBase + row) with ⟨e, he, h⟩ | ⟨f, hf, h⟩
    · obtain ⟨hpix, hhit⟩ := drawRow_spec (s.byteAt e) px (py + row) (s.fb, hit)
      obtain ⟨i1, i2⟩ := ih (row + 1) (drawRow (s.byteAt e) px (py + row) (s.fb, hit)).2
        (s.setFb (drawRow (s.byteAt e) px (py + row) (s.fb, hit)).1) (by omega)
      rw [drawRows_succ px py left row hit h]
      generalize hc1 : rowCovers (s.byteAt e) px (py + row) [0, 1, 2, 3, 4, 5, 6, 7] = cov at *
      have hcov : ∀ c r, cov c r = true ↔ r % 32 = (py + row) % 32 ∧
          ∃ col, col < 8 ∧ (s.byteAt e).getLsbD (7 - col) = true ∧ c % 64 = (px + col) % 64 := by
        intro c r; rw [← hc1]; exact rowCovers_iff (s.byteAt e) px (py + row) c r
      have hLit : ∀ c r, RowsLit (s.setFb (drawRow (s.byteAt e) px (py + row) (s.fb, hit)).1) px py (row + 1) left c r ↔
          RowsLit s px py (row + 1) left c r := fun _ _ => Iff.rfl
      have hsplit : ∀ c r, RowsLit s px py row (left + 1) c r ↔
          cov c r = true ∨ RowsLit s px py (row + 1) left c r := by
        intro c r
        rw [hcov]
        constructor
        · rintro ⟨row', col, b, a1, a2, a3, a4, a5, a6, a7⟩
          by_cases hr : row' = row
          · subst hr; rw [h] at a4; cases a4
            exact .inl ⟨a7.symm, col, a3, a5, a6.symm⟩
          · exact .inr ⟨row', col, b, by omega, by omega, a3, a4, a5, a6, a7⟩
        · rintro (⟨a7, col, a3, a5, a6⟩ | ⟨row', col, b, a1, a2, a3⟩)
          · exact ⟨row, col, _, by omega, by omega, a3, h, a5, a6.symm, a7.symm⟩
          · exact ⟨row', col, b, by omega, by omega, a3⟩
      have hdisj : ∀ c r, RowsLit s px py (row + 1) left c r → cov c r = false := by
        rintro c r ⟨row', col, b, a1, a2, a3, a4, a5, a6, a7⟩
        rw [Bool.eq_false_iff, Ne, hcov]
        rintro ⟨hr, -⟩
        omega
      refine ⟨fun c r => ?_, fun hm => ?_⟩
      · obtain ⟨j1, j2⟩ := i1 c r
        rw [hLit] at j1 j2
        simp only [State.setFb_fb, hpix] at j1 j2
        rw [hsplit]
        constructor
        · rintro (hc | hc)
          · rw [j2 (fun hl => by rw [hdisj c r hl] at hc; cases hc), hc]; simp
          · rw [j1 hc, hdisj c r hc]; simp
        · intro hc
          rw [j2 fun hl => hc (.inr hl), Bool.eq_false_iff.2 fun hl => hc (.inl hl)]; simp
      · obtain ⟨k1, hh, k2, k3, k4⟩ := i2 (by
          intro k hk
          have := hm (k + 1) (by omega)
          rwa [show row + (k + 1) = row + 1 + k by omega] at this)
        refine ⟨k1, hh, ?_, k3, k4⟩
        rw [k2, hhit, or_assoc]
        refine or_congr_right ⟨?_, ?_⟩
        · rintro (⟨col, hcol, hb, hp⟩ | ⟨c, r, hl, hp⟩)
          · refine ⟨px + col, py + row, (hsplit _ _).2 (.inl ((hcov _ _).2 ⟨rfl, col, ?_, hb, rfl⟩)), hp⟩
            simp only [List.mem_cons, List.not_mem_nil, or_false] at hcol; omega
          · rw [hLit] at hl
            refine ⟨c, r, (hsplit c r).2 (.inr hl), ?_⟩
            simpa only [State.setFb_fb, hpix, hdisj c r hl, Bool.xor_false] using hp
        · rintro ⟨c, r, hl, hp⟩
          rcases (hsplit c r).1 hl with hc | hl
          · obtain ⟨hr, col, h8, hb, hcc⟩ := (hcov c r).1 hc
            refine .inl ⟨col, ?_, hb, ?_⟩
            · simp only [List.mem_cons, List.not_mem_nil, or_false]; omega
            · rw [← pixel_mod, ← hcc, ← hr, pixel_mod]; exact hp
          · refine .inr ⟨c, r, hl, ?_⟩
            simp only [State.setFb_fb, hpix, hdisj c r hl, Bool.xor_false, hp]
    · have hstep : drawRows px py (left + 1) row hit s = s.markFault f := by simp only [drawRows, h]
      rw [hstep]
      refine ⟨fun c r => ⟨?_, fun _ => rfl⟩, fun hm => ?_⟩
      · obtain ⟨hp, ha, -⟩ := eff_error hf
        rintro ⟨row', col, b, a1, a2, a3, a4, -⟩
        rcases s.memRead_cases (s.dataBase + row') with ⟨e, he, h'⟩ | ⟨f, hf', h'⟩
        · rw [hp, eff_fault_of_ge (by simp only [memSize] at ha; omega)] at he; cases he
        · rw [h'] at a4; cases a4
      · obtain ⟨b, hb⟩ := hm 0 (by omega)
        rw [Nat.add_zero, h] at hb; cases hb

/-- Drawing rows leaves the fault mark, or marks an address out of range. -/
theorem drawRows_mark (px py left row : Nat) (hit : Bool) (s : State) :
    (drawRows px py left row hit s).faulted = s.faulted ∨
      ∃ c, (drawRows px py left row hit s).faulted = some (.outOfRange c) := by
  induction left generalizing row hit s with
  | zero => exact .inl rfl
  | succ left ih =>
    rcases s.memRead_cases (s.dataBase + row) with ⟨e, -, h⟩ | ⟨f, hf, h⟩
    · rw [drawRows_succ px py left row hit h]
      exact ih (row + 1) _ (s.setFb (drawRow (s.byteAt e) px (py + row) (s.fb, hit)).1)
    · obtain ⟨-, -, rfl⟩ := eff_error hf
      simp only [drawRows, h]; exact .inr ⟨_, rfl⟩

/-- Drawing rows out of reach faults at the first address above 0xFFF, with no register written (R54, R188). -/
theorem drawRows_outOfRange (px py left row : Nat) (hit : Bool) (s : State) (hp : s.params.oob = .fault)
    (hne : left ≠ 0) (hm : memSize < s.dataBase + row + left) :
    (drawRows px py left row hit s).faulted = some (.outOfRange (max (s.dataBase + row) 0x1000)) ∧
      (drawRows px py left row hit s).v = s.v := by
  induction left generalizing row hit s with
  | zero => exact absurd rfl hne
  | succ left ih =>
    simp only [memSize] at hm
    rcases s.memRead_cases (s.dataBase + row) with ⟨e, he, h⟩ | ⟨f, hf, h⟩
    · have ha : s.dataBase + row < 4096 := by
        by_contra hc
        rw [hp, eff_fault_of_ge (by omega)] at he; cases he
      rw [drawRows_succ px py left row hit h]
      have hb : ∀ g, (s.setFb g).dataBase = s.dataBase := fun _ => rfl
      obtain ⟨i1, i2⟩ := ih (row + 1) (drawRow (s.byteAt e) px (py + row) (s.fb, hit)).2
        (s.setFb (drawRow (s.byteAt e) px (py + row) (s.fb, hit)).1) hp (by omega)
        (by simp only [memSize, hb]; omega)
      refine ⟨?_, i2⟩
      rw [i1, hb]; congr 2; omega
    · obtain ⟨-, ha, rfl⟩ := eff_error hf
      simp only [drawRows, h, State.markFault_faulted]
      refine ⟨?_, rfl⟩
      congr 2; simp only [memSize] at ha; omega

end Sys2Proof.Machine
end

