-- ==== Sys2Proof/Laws/PerInstr.lean ====
section
/-! SUPPORT. Per-instruction laws. `TableRow`: an instruction is well formed and its word lies in its own row of the opcode
map, under the masks of both modes (R75, R77). -/

namespace Sys2Proof.Laws

/-- The instruction is well formed, and its word matches its row's `match` under its row's `mask`, in both modes. -/
def TableRow.Statement (i : Instr) : Prop :=
  i.wellFormed = true ∧ ∀ m, encode i &&& rowMask m i = rowMatch i

namespace TableRow

theorem cls : Statement .cls :=
  ⟨rfl, fun m => by cases m <;> rfl⟩

theorem ret : Statement .ret :=
  ⟨rfl, fun m => by cases m <;> rfl⟩

theorem jp (nnn : Addr12) : Statement (.jp nnn) :=
  ⟨rfl, fun _ => (wordNnn_and_op _ _).trans rfl⟩

theorem call (nnn : Addr12) : Statement (.call nnn) :=
  ⟨rfl, fun _ => (wordNnn_and_op _ _).trans rfl⟩

theorem seImm (x : Reg) (kk : Byte) : Statement (.seImm x kk) :=
  ⟨rfl, fun _ => (wordXkk_and_op _ _ _).trans rfl⟩

theorem sneImm (x : Reg) (kk : Byte) : Statement (.sneImm x kk) :=
  ⟨rfl, fun _ => (wordXkk_and_op _ _ _).trans rfl⟩

theorem seReg (x y : Reg) : Statement (.seReg x y) :=
  ⟨rfl, fun m => by
    cases m
    · exact (wordXyn_and_opN _ _ _ _).trans rfl
    · exact (wordXyn_and_op _ _ _ _).trans rfl⟩

theorem ldImm (x : Reg) (kk : Byte) : Statement (.ldImm x kk) :=
  ⟨rfl, fun _ => (wordXkk_and_op _ _ _).trans rfl⟩

theorem addImm (x : Reg) (kk : Byte) : Statement (.addImm x kk) :=
  ⟨rfl, fun _ => (wordXkk_and_op _ _ _).trans rfl⟩

theorem ldReg (x y : Reg) : Statement (.ldReg x y) :=
  ⟨rfl, fun _ => (wordXyn_and_opN _ _ _ _).trans rfl⟩

theorem orReg (x y : Reg) : Statement (.orReg x y) :=
  ⟨rfl, fun _ => (wordXyn_and_opN _ _ _ _).trans rfl⟩

theorem andReg (x y : Reg) : Statement (.andReg x y) :=
  ⟨rfl, fun _ => (wordXyn_and_opN _ _ _ _).trans rfl⟩

theorem xorReg (x y : Reg) : Statement (.xorReg x y) :=
  ⟨rfl, fun _ => (wordXyn_and_opN _ _ _ _).trans rfl⟩

theorem addReg (x y : Reg) : Statement (.addReg x y) :=
  ⟨rfl, fun _ => (wordXyn_and_opN _ _ _ _).trans rfl⟩

theorem subReg (x y : Reg) : Statement (.subReg x y) :=
  ⟨rfl, fun _ => (wordXyn_and_opN _ _ _ _).trans rfl⟩

theorem shr (x y : Reg) : Statement (.shr x y) :=
  ⟨rfl, fun _ => (wordXyn_and_opN _ _ _ _).trans rfl⟩

theorem subn (x y : Reg) : Statement (.subn x y) :=
  ⟨rfl, fun _ => (wordXyn_and_opN _ _ _ _).trans rfl⟩

theorem shl (x y : Reg) : Statement (.shl x y) :=
  ⟨rfl, fun _ => (wordXyn_and_opN _ _ _ _).trans rfl⟩

theorem sneReg (x y : Reg) : Statement (.sneReg x y) :=
  ⟨rfl, fun m => by
    cases m
    · exact (wordXyn_and_opN _ _ _ _).trans rfl
    · exact (wordXyn_and_op _ _ _ _).trans rfl⟩

theorem ldI (nnn : Addr12) : Statement (.ldI nnn) :=
  ⟨rfl, fun _ => (wordNnn_and_op _ _).trans rfl⟩

theorem ldIV0 (nnn : Addr12) : Statement (.ldIV0 nnn) :=
  ⟨rfl, fun _ => (wordNnn_and_op _ _).trans rfl⟩

theorem rnd (x : Reg) (kk : Byte) : Statement (.rnd x kk) :=
  ⟨rfl, fun _ => (wordXkk_and_op _ _ _).trans rfl⟩

theorem drw (x y : Reg) (n : Nibble) : Statement (.drw x y n) :=
  ⟨rfl, fun _ => (wordXyn_and_op _ _ _ _).trans rfl⟩

theorem skp (x : Reg) : Statement (.skp x) :=
  ⟨rfl, fun _ => (wordXkk_and_opKk _ _ _).trans rfl⟩

theorem sknp (x : Reg) : Statement (.sknp x) :=
  ⟨rfl, fun _ => (wordXkk_and_opKk _ _ _).trans rfl⟩

theorem ldVxDT (x : Reg) : Statement (.ldVxDT x) :=
  ⟨rfl, fun _ => (wordXkk_and_opKk _ _ _).trans rfl⟩

theorem ldVxK (x : Reg) : Statement (.ldVxK x) :=
  ⟨rfl, fun _ => (wordXkk_and_opKk _ _ _).trans rfl⟩

theorem ldDTVx (x : Reg) : Statement (.ldDTVx x) :=
  ⟨rfl, fun _ => (wordXkk_and_opKk _ _ _).trans rfl⟩

theorem ldSTVx (x : Reg) : Statement (.ldSTVx x) :=
  ⟨rfl, fun _ => (wordXkk_and_opKk _ _ _).trans rfl⟩

theorem addI (x : Reg) : Statement (.addI x) :=
  ⟨rfl, fun _ => (wordXkk_and_opKk _ _ _).trans rfl⟩

theorem ldF (x : Reg) : Statement (.ldF x) :=
  ⟨rfl, fun _ => (wordXkk_and_opKk _ _ _).trans rfl⟩

theorem ldB (x : Reg) : Statement (.ldB x) :=
  ⟨rfl, fun _ => (wordXkk_and_opKk _ _ _).trans rfl⟩

theorem stRegs (x : Reg) : Statement (.stRegs x) :=
  ⟨rfl, fun _ => (wordXkk_and_opKk _ _ _).trans rfl⟩

theorem ldRegs (x : Reg) : Statement (.ldRegs x) :=
  ⟨rfl, fun _ => (wordXkk_and_opKk _ _ _).trans rfl⟩

end TableRow

end Sys2Proof.Laws
end

