-- ==== Sys2Proof/Laws/Step.lean ====
section
/-! SUPPORT. What an execution and a step can do, said once: the outcomes of `exec`, the outcomes of running a fetched word,
and the three ways a step of an unfaulted state goes. -/

namespace Sys2Proof.Machine

/-! ### The timers around the fetch and the execution -/

theorem State.timersBefore_eq (s : State) :
    s.timersBefore = if s.params.timers = .afterExecute then s else s.decTimers := by
  unfold State.timersBefore; split <;> simp_all

theorem State.timersAfter_eq (s : State) :
    s.timersAfter = if s.params.timers = .afterExecute ∧ s.faulted = none then s.decTimers else s := by
  unfold State.timersAfter; split <;> simp_all

/-- The decrement before the fetch touches the timers alone. -/
theorem State.timersBefore_shape (s : State) : ∃ a b, s.timersBefore = { s with dt := a, st := b } := by
  unfold State.timersBefore; split
  · exact ⟨_, _, rfl⟩
  · exact ⟨s.dt, s.st, rfl⟩

/-- The decrement after execute touches the timers alone. -/
theorem State.timersAfter_shape (s : State) : ∃ a b, s.timersAfter = { s with dt := a, st := b } := by
  unfold State.timersAfter; split
  · exact ⟨_, _, rfl⟩
  · exact ⟨s.dt, s.st, rfl⟩
  · exact ⟨s.dt, s.st, rfl⟩

@[simp] theorem State.timersBefore_params (s : State) : s.timersBefore.params = s.params := by
  obtain ⟨a, b, h⟩ := s.timersBefore_shape; rw [h]

@[simp] theorem State.timersBefore_faulted (s : State) : s.timersBefore.faulted = s.faulted := by
  obtain ⟨a, b, h⟩ := s.timersBefore_shape; rw [h]

@[simp] theorem State.fetch_timersBefore (s : State) : s.timersBefore.fetch = s.fetch := by
  obtain ⟨a, b, h⟩ := s.timersBefore_shape; rw [h]; rfl

@[simp] theorem State.timersAfter_params (s : State) : s.timersAfter.params = s.params := by
  obtain ⟨a, b, h⟩ := s.timersAfter_shape; rw [h]

@[simp] theorem State.timersAfter_faulted (s : State) : s.timersAfter.faulted = s.faulted := by
  obtain ⟨a, b, h⟩ := s.timersAfter_shape; rw [h]

/-! ### The outcomes of an execution -/

theorem vfRefused_of_sequential {p : VfAlias} (h : p = .sequential) (l : List Reg) : vfRefused p l = false := by
  simp [vfRefused, h]

theorem vfRefused_iff (p : VfAlias) (l : List Reg) : vfRefused p l = true ↔ p = .refuse ∧ VF ∈ l := by
  simp only [vfRefused, Bool.and_eq_true, decide_eq_true_eq, List.contains_iff_mem]

/-- An execution answers a next state under the same parameters, or the `VFOperand` refusal, which needs P_VF_ALIAS =
refuse and `VF` as an operand. -/
theorem exec_cases (i : Instr) (s : State) :
    (∃ t, exec i s = .next t ∧ t.params = s.params) ∨
    (exec i s = .refused .vfOperand ∧ s.params.vfAlias = .refuse ∧ UsesVfAsOperand i) := by
  have vf_arm : ∀ (l : List Reg) (t : State), t.params = s.params → (VF ∈ l → UsesVfAsOperand i) →
      (∃ u, (if vfRefused s.params.vfAlias l then .refused .vfOperand else .next t :
          Host.Outcome State Fault Refusal) = .next u ∧ u.params = s.params) ∨
      ((if vfRefused s.params.vfAlias l then .refused .vfOperand else .next t :
          Host.Outcome State Fault Refusal) = .refused .vfOperand ∧ s.params.vfAlias = .refuse ∧ UsesVfAsOperand i) := by
    intro l t ht hu
    by_cases h : vfRefused s.params.vfAlias l = true
    · obtain ⟨hp, hm⟩ := (vfRefused_iff _ _).1 h
      exact .inr ⟨if_pos h, hp, hu hm⟩
    · exact .inl ⟨t, if_neg h, ht⟩
  cases i
  case ret => left; simp only [exec, execRet]; split <;> exact ⟨_, rfl, rfl⟩
  case call => left; simp only [exec, execCall]; split <;> exact ⟨_, rfl, rfl⟩
  case subReg x y =>
    refine vf_arm _ _ rfl fun h => .inl ⟨x, y, .inl rfl, ?_⟩
    simpa only [List.mem_cons, List.not_mem_nil, or_false, eq_comm] using h
  case subn x y =>
    refine vf_arm _ _ rfl fun h => .inl ⟨x, y, .inr rfl, ?_⟩
    simpa only [List.mem_cons, List.not_mem_nil, or_false, eq_comm] using h
  case shr x y =>
    refine vf_arm _ _ rfl fun h => .inr ⟨y, .inl ?_⟩
    rw [List.mem_singleton.1 h]
  case shl x y =>
    refine vf_arm _ _ rfl fun h => .inr ⟨y, .inr ?_⟩
    rw [List.mem_singleton.1 h]
  case ldB => exact .inl ⟨_, rfl, storeBytes_params _ _ _⟩
  case stRegs => exact .inl ⟨_, rfl, storeBytes_params _ _ _⟩
  case ldRegs x => exact .inl ⟨_, rfl, loadBytes_frame (regsUpTo x) s.dataBase s .params (by decide)⟩
  case drw x y n =>
    obtain ⟨g, v, f, h⟩ := drawRows_shape (s.reg x).toNat (s.reg y).toNat n.toNat 0 false s
    refine .inl ⟨_, rfl, ?_⟩
    rw [h]
  all_goals first
    | exact .inl ⟨_, rfl, rfl⟩
    | (refine .inl ⟨_, rfl, ?_⟩; rw [State.skipIf_eq]; rfl)

/-- An execution leaves the fault mark, or marks an address or a slot out of range: it never marks `VFOperand`. -/
theorem exec_mark {i : Instr} {s t : State} (h : exec i s = .next t) :
    t.faulted = s.faulted ∨ (∃ a, t.faulted = some (.outOfRange a)) ∨ ∃ sp, t.faulted = some (.stackOutOfRange sp) := by
  cases i
  case ret =>
    simp only [exec, execRet] at h
    rcases slotOf_cases s.params.stack s.sp with ⟨j, hj, -⟩ | ⟨-, -, hj⟩
    · rw [hj] at h; cases h; exact .inl rfl
    · rw [hj] at h; cases h; exact .inr (.inr ⟨_, rfl⟩)
  case call =>
    simp only [exec, execCall, State.setSp_params, State.setSp_sp] at h
    rcases slotOf_cases s.params.stack (s.sp + 1) with ⟨j, hj, -⟩ | ⟨-, -, hj⟩
    · rw [hj] at h; cases h; exact .inl rfl
    · rw [hj] at h; cases h; exact .inr (.inr ⟨_, rfl⟩)
  case subReg => simp only [exec, execSubReg] at h; split at h <;> cases h; exact .inl rfl
  case subn => simp only [exec, execSubn] at h; split at h <;> cases h; exact .inl rfl
  case shr => simp only [exec, execShr] at h; split at h <;> cases h; exact .inl rfl
  case shl => simp only [exec, execShl] at h; split at h <;> cases h; exact .inl rfl
  case ldB => cases h; exact (storeBytes_mark _ _ _).imp_right .inl
  case stRegs => cases h; exact (storeBytes_mark _ _ _).imp_right .inl
  case ldRegs => cases h; exact (loadBytes_mark _ _ _).imp_right .inl
  case drw => cases h; exact (drawRows_mark _ _ _ _ _ _).imp_right .inl
  all_goals first
    | (cases h; exact .inl rfl)
    | (cases h; rw [State.skipIf_eq]; exact .inl rfl)

/-- The outcomes of running a fetched word: nothing on an unrecognized word, the instruction's next state, or the
`VFOperand` mark on the state before the step. -/
theorem runWord_cases (w : Word) (before s : State) :
    (∃ u, decode s.params.decode w = .unrecognized u ∧ runWord w before s = .next s.timersAfter) ∨
    (∃ i t, decode s.params.decode w = .instr i ∧ exec i s = .next t ∧ t.params = s.params ∧
      runWord w before s = .next t.timersAfter) ∨
    (∃ i, decode s.params.decode w = .instr i ∧ exec i s = .refused .vfOperand ∧ s.params.vfAlias = .refuse ∧
      UsesVfAsOperand i ∧ runWord w before s = .next (before.markFault (.vfOperand w))) := by
  unfold runWord
  cases hd : decode s.params.decode w with
  | unrecognized u => exact .inl ⟨u, rfl, rfl⟩
  | instr i =>
    rcases exec_cases i s with ⟨t, h, hp⟩ | ⟨h, hr, hu⟩
    · exact .inr (.inl ⟨i, t, rfl, h, hp, by simp only [h]⟩)
    · exact .inr (.inr ⟨i, rfl, h, hr, hu, by simp only [h]⟩)

/-! ### The outcomes of a step -/

/-- A step of a running block runs the word it fetches. -/
theorem step_of_fetches {s : State} {w : Word} (hr : s.Running) (hf : s.Fetches w) :
    step s = runWord w s s.timersBefore.advance := by
  obtain ⟨hi, lo, h, rfl⟩ := hf
  simp only [step, cycle, hr.1, hr.2, State.fetch_timersBefore, h]

/-- A step of an unfaulted state does nothing while paused, faults in the fetch, or runs the word fetched. -/
theorem step_cases (s : State) (hf : s.faulted = none) :
    (s.paused = true ∧ step s = .next s) ∨
    (s.paused = false ∧ s.params.oob = .fault ∧ 0xFFF ≤ s.pc.toNat ∧
      step s = .next (s.timersBefore.markFault (.outOfRange (max s.pc.toNat 0x1000)))) ∨
    (s.Running ∧ ∃ w, s.Fetches w ∧ step s = runWord w s s.timersBefore.advance) := by
  cases hp : s.paused
  · rcases s.fetch_cases with ⟨e, e', -, -, h⟩ | ⟨h1, h2, h⟩
    · exact .inr (.inr ⟨⟨hf, hp⟩, _, ⟨_, _, h, rfl⟩, step_of_fetches ⟨hf, hp⟩ ⟨_, _, h, rfl⟩⟩)
    · exact .inr (.inl ⟨rfl, h1, h2, by simp only [step, cycle, hf, hp, State.fetch_timersBefore, h]⟩)
  · exact .inl ⟨rfl, by simp only [step, cycle, hf, hp]⟩

/-- A step about to run an instruction answers its next state, with the decrement after execute. -/
theorem step_of_aboutToRun {s : State} {i : Instr} (h : s.AboutToRun i) {t : State}
    (he : exec i s.timersBefore.advance = .next t) : step s = .next t.timersAfter := by
  obtain ⟨hr, w, hw, hd⟩ := h
  rw [step_of_fetches hr hw]
  unfold runWord
  rw [show s.timersBefore.advance.params = s.params from s.timersBefore_params, hd]
  simp only [he]

end Sys2Proof.Machine
end

