-- ==== Sys2Proof/Tests/Slice0.lean ====
section
/-! SUPPORT. The model's own tests: ill-formed arguments, words written out bit by bit from the spec's encodings, one-step
vectors of 95_test_vectors.md, and a witness for the hypotheses of every statement that has some. -/

namespace Sys2Proof.Tests

open Sys2Proof Sys2Proof.Machine

/-! ### Helpers -/

/-- The next state of an outcome, if it is one. -/
def next? (o : Host.Outcome State Fault Refusal) : Option State :=
  match o with
  | .next t => some t
  | .fault _ => none
  | .refused _ => none

/-- The refusal of an outcome, if it is one. -/
def refusal? (o : Host.Outcome State Fault Refusal) : Option Refusal :=
  match o with
  | .next _ => none
  | .fault _ => none
  | .refused r => some r

/-- The state after one step that fetches the word `w`. -/
def after (w : Nat) (s : State) : Option State := next? (step (s.withFetchWord 16 w))

/-- Registers set to given values. -/
def regs (l : List (Reg × Byte)) (s : State) : State := l.foldl (fun s p => s.setReg p.1 p.2) s

/-- Bytes put into memory. -/
def bytes (a : Nat) (l : List Byte) (s : State) : State := copyImage l a s

/-- The reset state under other parameters than the defaults. -/
def under (p : Params) : State := State.resetWith p

/-- The defaults with P_OOB = fault, P_OOB = clamp, P_STACK = fault, P_DECODE = keyed, P_TIMER_ORDER = before_fetch,
P_VF_ALIAS = refuse. -/
def oobFault : Params := { Params.default with oob := .fault }
def oobClamp : Params := { Params.default with oob := .clamp }
def stackFault : Params := { Params.default with stack := .fault }
def keyed : Params := { Params.default with decode := .keyed }
def beforeFetch : Params := { Params.default with timers := .beforeFetch }
def refuse : Params := { Params.default with vfAlias := .refuse }

/-! ### Well-formedness: each check refuses an ill-formed term (R201, R262) -/

theorem test_instr_wellFormed : (Instr.drw 15 15 15).wellFormed = true := by decide
theorem test_key_16_illFormed : keyWellFormed 16 = false := by decide
theorem test_key_15_wellFormed : keyWellFormed 15 = true := by decide
theorem test_onKeyDown_16_illFormed : (HostOp.onKeyDown 16).wellFormed = false := by decide
theorem test_onKeyUp_16_illFormed : (HostOp.onKeyUp 16).wellFormed = false := by decide
theorem test_image_3585_illFormed : imageWellFormed (List.replicate 3585 0) = false := by
  simp only [imageWellFormed, List.length_replicate, maxImage]; decide
theorem test_image_3584_wellFormed : imageWellFormed (List.replicate 3584 0) = true := by
  simp only [imageWellFormed, List.length_replicate, maxImage]; decide
theorem test_loadProgram_3585_illFormed : (HostOp.loadProgram (List.replicate 3585 0)).wellFormed = false :=
  test_image_3585_illFormed

/-! ### Decoding: every row's word written out bit by bit from its encoding (R75; the words of 95_test_vectors.md) -/

/-- `00E0` -/
theorem test_decode_cls : decode .strict 0b0000_0000_1110_0000 = .instr .cls := by decide
/-- `00EE` -/
theorem test_decode_ret : decode .strict 0b0000_0000_1110_1110 = .instr .ret := by decide
/-- `1234` -/
theorem test_decode_jp : decode .strict 0b0001_0010_0011_0100 = .instr (.jp 0x234) := by decide
/-- `2210` -/
theorem test_decode_call : decode .strict 0b0010_0010_0001_0000 = .instr (.call 0x210) := by decide
/-- `3342` -/
theorem test_decode_seImm : decode .strict 0b0011_0011_0100_0010 = .instr (.seImm 3 0x42) := by decide
/-- `4342` -/
theorem test_decode_sneImm : decode .strict 0b0100_0011_0100_0010 = .instr (.sneImm 3 0x42) := by decide
/-- `5120` -/
theorem test_decode_seReg : decode .strict 0b0101_0001_0010_0000 = .instr (.seReg 1 2) := by decide
/-- `6AFF` -/
theorem test_decode_ldImm : decode .strict 0b0110_1010_1111_1111 = .instr (.ldImm 0xA 0xFF) := by decide
/-- `7220` -/
theorem test_decode_addImm : decode .strict 0b0111_0010_0010_0000 = .instr (.addImm 2 0x20) := by decide
/-- `8010` -/
theorem test_decode_ldReg : decode .strict 0b1000_0000_0001_0000 = .instr (.ldReg 0 1) := by decide
/-- `8011` -/
theorem test_decode_orReg : decode .strict 0b1000_0000_0001_0001 = .instr (.orReg 0 1) := by decide
/-- `8012` -/
theorem test_decode_andReg : decode .strict 0b1000_0000_0001_0010 = .instr (.andReg 0 1) := by decide
/-- `8013` -/
theorem test_decode_xorReg : decode .strict 0b1000_0000_0001_0011 = .instr (.xorReg 0 1) := by decide
/-- `8F14` -/
theorem test_decode_addReg : decode .strict 0b1000_1111_0001_0100 = .instr (.addReg 0xF 1) := by decide
/-- `80F5` -/
theorem test_decode_subReg : decode .strict 0b1000_0000_1111_0101 = .instr (.subReg 0 0xF) := by decide
/-- `8016` -/
theorem test_decode_shr : decode .strict 0b1000_0000_0001_0110 = .instr (.shr 0 1) := by decide
/-- `8017` -/
theorem test_decode_subn : decode .strict 0b1000_0000_0001_0111 = .instr (.subn 0 1) := by decide
/-- `805E` -/
theorem test_decode_shl : decode .strict 0b1000_0000_0101_1110 = .instr (.shl 0 5) := by decide
/-- `9120` -/
theorem test_decode_sneReg : decode .strict 0b1001_0001_0010_0000 = .instr (.sneReg 1 2) := by decide
/-- `A123` -/
theorem test_decode_ldI : decode .strict 0b1010_0001_0010_0011 = .instr (.ldI 0x123) := by decide
/-- `B300` -/
theorem test_decode_ldIV0 : decode .strict 0b1011_0011_0000_0000 = .instr (.ldIV0 0x300) := by decide
/-- `C30F` -/
theorem test_decode_rnd : decode .strict 0b1100_0011_0000_1111 = .instr (.rnd 3 0x0F) := by decide
/-- `D125` -/
theorem test_decode_drw : decode .strict 0b1101_0001_0010_0101 = .instr (.drw 1 2 5) := by decide
/-- `E59E` -/
theorem test_decode_skp : decode .strict 0b1110_0101_1001_1110 = .instr (.skp 5) := by decide
/-- `E5A1` -/
theorem test_decode_sknp : decode .strict 0b1110_0101_1010_0001 = .instr (.sknp 5) := by decide
/-- `F307` -/
theorem test_decode_ldVxDT : decode .strict 0b1111_0011_0000_0111 = .instr (.ldVxDT 3) := by decide
/-- `F30A` -/
theorem test_decode_ldVxK : decode .strict 0b1111_0011_0000_1010 = .instr (.ldVxK 3) := by decide
/-- `F015` -/
theorem test_decode_ldDTVx : decode .strict 0b1111_0000_0001_0101 = .instr (.ldDTVx 0) := by decide
/-- `F418` -/
theorem test_decode_ldSTVx : decode .strict 0b1111_0100_0001_1000 = .instr (.ldSTVx 4) := by decide
/-- `F21E` -/
theorem test_decode_addI : decode .strict 0b1111_0010_0001_1110 = .instr (.addI 2) := by decide
/-- `F129` -/
theorem test_decode_ldF : decode .strict 0b1111_0001_0010_1001 = .instr (.ldF 1) := by decide
/-- `F033` -/
theorem test_decode_ldB : decode .strict 0b1111_0000_0011_0011 = .instr (.ldB 0) := by decide
/-- `F255` -/
theorem test_decode_stRegs : decode .strict 0b1111_0010_0101_0101 = .instr (.stRegs 2) := by decide
/-- `F265` -/
theorem test_decode_ldRegs : decode .strict 0b1111_0010_0110_0101 = .instr (.ldRegs 2) := by decide
/-- The word as the table gives it, laid out high byte first (R57). -/
theorem test_decodeTableWord : decodeTableWord 16 0b1101_0001_0010_0101 = some (.drw 1 2 5) := by decide
/-- A word of no row (R80). -/
theorem test_decodeTableWord_none : decodeTableWord 16 0b1000_0000_0000_1000 = none := by decide
/-- T0-3, T0-4: the words on which the modes differ. -/
theorem test_decode_modes : decode .strict 0x5121 = .unrecognized 0x5121 ∧ decode .keyed 0x5121 = .instr (.seReg 1 2) ∧
    decode .strict 0x01E0 = .unrecognized 0x01E0 ∧ decode .keyed 0x01E0 = .instr .cls := by decide

/-! ### The step (T0) -/

/-- T0-7: an unrecognized word advances `PC` and decrements the timers (R98). -/
theorem test_unrecognized :
    (after 0x0000 ((State.reset.setDt 5).setSt 1)).map (fun t => (t.pc, t.dt, t.st)) = some (0x202, 4, 0) := by decide
/-- T0-5: the fetch of the second byte wraps into the font under wrap. -/
theorem test_fetch_wraps :
    (after 0x60F0 (State.reset.setPc 0xFFF)).map (fun t => (t.reg 0, t.pc)) = some (0xF0, 0x1001) := by decide
/-- T0-5 under fault: the second byte is out of range, and `PC` stays. -/
theorem test_fetch_faults :
    (next? (step ((under oobFault).setPc 0xFFF))).map (fun t => (t.faulted, t.pc)) = some (some (.outOfRange 0x1000), 0xFFF) := by decide
/-- T0-6: `PC` advances from 0xFFFE to 0. -/
theorem test_pc_wraps :
    (after 0x6001 (State.reset.setPc 0xFFFE)).map (fun t => (t.reg 0, t.pc)) = some (1, 0) := by decide
/-- T0-8: a paused step changes nothing. -/
theorem test_paused_step :
    (next? (step ((((State.reset.setDt 5).setPaused true).setOnKeyPress 0)))).map (fun t => (t.pc, t.dt, t.paused)) = some (0x200, 5, true) := by decide
/-- T0-9: memory after reset (FONT default). -/
theorem test_reset_memory :
    (State.reset.byteAt 0, State.reset.byteAt 1, State.reset.byteAt 0x4B, State.reset.byteAt 0x4F, State.reset.byteAt 0x50, State.reset.pc) = (0xF0, 0x90, 0xF0, 0x80, 0, 0x200) := by decide

/-! ### Control flow (T1) -/

/-- T1-1. -/
theorem test_jp :
    (after 0x1234 State.reset).map (fun t => t.pc) = some 0x234 := by decide
/-- T1-2. -/
theorem test_call :
    (after 0x2210 (State.reset.setPc 0x204)).map (fun t => (t.sp, t.slot 1, t.pc)) = some (1, 0x206, 0x210) := by decide
/-- T1-5 under fault: `SP` is incremented, no slot is written, `PC` stays advanced. -/
theorem test_call_stack_fault :
    (after 0x2300 ((under stackFault).setSp 15)).map (fun t => (t.sp, t.slot 0, t.pc, t.faulted)) = some (16, 0, 0x202, some (.stackOutOfRange 16)) := by decide
/-- T1-3. -/
theorem test_ret :
    (after 0x00EE ((State.reset.setSp 1).setSlot 1 0x206)).map (fun t => (t.pc, t.sp)) = some (0x206, 0) := by decide
/-- T1-4: `SP` wraps from 0 to 255. -/
theorem test_ret_at_zero :
    (after 0x00EE State.reset).map (fun t => (t.pc, t.sp)) = some (0, 255) := by decide
/-- T1-8. -/
theorem test_seImm :
    (after 0x3342 (regs [(3, 0x42)] State.reset)).map (fun t => t.pc) = some 0x204 := by decide
/-- T1-16: the skip wraps. -/
theorem test_seImm_wraps :
    (after 0x3000 (State.reset.setPc 0xFFFC)).map (fun t => t.pc) = some 0 := by decide
/-- T1-10. -/
theorem test_sneImm :
    (after 0x4342 (regs [(3, 0x41)] State.reset)).map (fun t => t.pc) = some 0x204 := by decide
/-- T1-12. -/
theorem test_seReg :
    (after 0x5120 (regs [(1, 7), (2, 7)] State.reset)).map (fun t => t.pc) = some 0x204 := by decide
/-- T1-13. -/
theorem test_seReg_differs :
    (after 0x5120 (regs [(1, 7), (2, 8)] State.reset)).map (fun t => t.pc) = some 0x202 := by decide
/-- T1-14. -/
theorem test_sneReg :
    (after 0x9120 (regs [(1, 7), (2, 8)] State.reset)).map (fun t => t.pc) = some 0x204 := by decide

/-! ### Register arithmetic and logic (T2) -/

/-- T2-1. -/
theorem test_ldImm :
    (after 0x6AFF State.reset).map (fun t => t.reg 0xA) = some 0xFF := by decide
/-- T2-2: no carry is recorded. -/
theorem test_addImm :
    (after 0x7220 (regs [(2, 0xF0), (0xF, 0x55)] State.reset)).map (fun t => (t.reg 2, t.reg 0xF)) = some (0x10, 0x55) := by decide
/-- T2-4. -/
theorem test_ldReg :
    (after 0x8010 (regs [(0, 0x3C), (1, 0x0F), (0xF, 0x55)] State.reset)).map (fun t => (t.reg 0, t.reg 0xF)) = some (0x0F, 0x55) := by decide
/-- T2-4: `VF` is not reset. -/
theorem test_orReg :
    (after 0x8011 (regs [(0, 0x3C), (1, 0x0F), (0xF, 0x55)] State.reset)).map (fun t => (t.reg 0, t.reg 0xF)) = some (0x3F, 0x55) := by decide
/-- T2-4. -/
theorem test_andReg :
    (after 0x8012 (regs [(0, 0x3C), (1, 0x0F), (0xF, 0x55)] State.reset)).map (fun t => (t.reg 0, t.reg 0xF)) = some (0x0C, 0x55) := by decide
/-- T2-4. -/
theorem test_xorReg :
    (after 0x8013 (regs [(0, 0x3C), (1, 0x0F), (0xF, 0x55)] State.reset)).map (fun t => (t.reg 0, t.reg 0xF)) = some (0x33, 0x55) := by decide
/-- T2-6 (S5). -/
theorem test_addReg :
    (after 0x8014 (regs [(0, 250), (1, 10)] State.reset)).map (fun t => (t.reg 0, t.reg 0xF)) = some (4, 1) := by decide
/-- T2-10: the carry is written last. -/
theorem test_addReg_vf :
    (after 0x8F14 (regs [(0xF, 200), (1, 100)] State.reset)).map (fun t => t.reg 0xF) = some 1 := by decide
/-- T2-14: equal operands give 0 and 0. -/
theorem test_subReg_equal :
    (after 0x8015 (regs [(0, 5), (1, 5), (0xF, 9)] State.reset)).map (fun t => (t.reg 0, t.reg 0xF)) = some (0, 0) := by decide
/-- T2-16: the result reads the flag just written. -/
theorem test_subReg_vf :
    (after 0x80F5 (regs [(0, 5), (0xF, 3)] State.reset)).map (fun t => (t.reg 0, t.reg 0xF)) = some (4, 1) := by decide
/-- T2-18: `Vy` is not read. -/
theorem test_shr :
    (after 0x8016 (regs [(0, 0x05), (1, 0xFF)] State.reset)).map (fun t => (t.reg 0, t.reg 0xF)) = some (2, 1) := by decide
/-- T2-22. -/
theorem test_subn :
    (after 0x8017 (regs [(0, 3), (1, 10)] State.reset)).map (fun t => (t.reg 0, t.reg 0xF)) = some (7, 1) := by decide
/-- T2-23. -/
theorem test_subn_borrow :
    (after 0x8017 (regs [(0, 10), (1, 3)] State.reset)).map (fun t => (t.reg 0, t.reg 0xF)) = some (0xF9, 0) := by decide
/-- T2-25: the raw bit, not 1. -/
theorem test_shl :
    (after 0x800E (regs [(0, 0xC1)] State.reset)).map (fun t => (t.reg 0, t.reg 0xF)) = some (0x82, 0x80) := by decide
/-- T2-28. -/
theorem test_shl_vf :
    (after 0x8FFE (regs [(0xF, 0x80)] State.reset)).map (fun t => t.reg 0xF) = some 0 := by decide
/-- T2-33: the refusal leaves the state before the step. -/
theorem test_vf_refused :
    (after 0x8F15 (under refuse)).map (fun t => (t.faulted, t.pc)) = some (some (.vfOperand 0x8F15), 0x200) := by decide
/-- T2-31: with mask 0 the result is 0, whatever is drawn. -/
theorem test_rnd_masked : ∃ t, exec (.rnd 3 0) State.reset = .next t ∧ t.reg 3 = 0 := ⟨_, rfl, by simp⟩
/-- T2-32: with mask 0xFF the result is the byte drawn. -/
theorem test_rnd_drawn : ∃ t, exec (.rnd 3 0xFF) State.reset = .next t ∧ t.reg 3 = Config.randomByte 0 := by
  refine ⟨_, rfl, ?_⟩
  rw [State.reg_setReg_self]
  exact BitVec.and_allOnes (x := Config.randomByte 0)

/-! ### Index register and memory (T3) -/

/-- T3-1. -/
theorem test_ldI :
    (after 0xA123 State.reset).map (fun t => t.idx) = some 0x123 := by decide
/-- T3-2: no jump. -/
theorem test_ldIV0 :
    (after 0xB300 (regs [(0, 0x10)] State.reset)).map (fun t => (t.idx, t.pc)) = some (0x310, 0x202) := by decide
/-- T3-5: `I` wraps and `VF` stays. -/
theorem test_addI :
    (after 0xF01E ((regs [(0, 1), (0xF, 7)] State.reset).setIdx 0xFFFF)).map (fun t => (t.idx, t.reg 0xF)) = some (0, 7) := by decide
/-- T3-7: the register is not masked to a digit. -/
theorem test_ldF :
    (after 0xF129 (regs [(1, 0x10)] State.reset)).map (fun t => t.idx) = some 0x050 := by decide
/-- T3-9. -/
theorem test_ldB :
    (after 0xF033 ((regs [(0, 254)] State.reset).setIdx 0x300)).map (fun t => (t.byteAt 0x300, t.byteAt 0x301, t.byteAt 0x302, t.idx)) = some (2, 5, 4, 0x300) := by decide
/-- T3-12 under fault: the first digit is stored, then the fault, with the timers as they were. -/
theorem test_ldB_fault :
    (after 0xF033 (((regs [(0, 123)] (under oobFault)).setIdx 0xFFF).setDt 5)).map (fun t => (t.byteAt 0xFFF, t.faulted, t.pc, t.dt)) = some (1, some (.outOfRange 0x1000), 0x202, 5) := by decide
/-- T3-13. -/
theorem test_stRegs :
    (after 0xF255 ((regs [(0, 1), (1, 2), (2, 3)] State.reset).setIdx 0x300)).map (fun t => (t.byteAt 0x300, t.byteAt 0x302, t.byteAt 0x303, t.idx)) = some (1, 3, 0, 0x300) := by decide
/-- T3-15. -/
theorem test_ldRegs :
    (after 0xF265 (bytes 0x300 [2, 5, 4] ((regs [(3, 0x77)] State.reset).setIdx 0x300))).map (fun t => (t.reg 0, t.reg 1, t.reg 2, t.reg 3, t.idx)) = some (2, 5, 4, 0x77, 0x300) := by decide
/-- T3-17: the load wraps into the font. -/
theorem test_ldRegs_wraps :
    (after 0xF365 (State.reset.setIdx 0xFFE)).map (fun t => (t.reg 0, t.reg 1, t.reg 2, t.reg 3)) = some (0, 0, 0xF0, 0x90) := by decide

/-! ### Display (T4) -/

/-- T4-1. -/
theorem test_cls :
    (after 0x00E0 ((regs [(0xF, 0x55)] State.reset).setFb (drawPixel clearDisplay 3 4).1)).map (fun t => (pixel t.fb 3 4, t.reg 0xF)) = some (false, 0x55) := by decide
/-- T4-8: the column is read from `VF` before it is written. -/
theorem test_drw_vf :
    (after 0xDF01 (bytes 0x300 [0x80] ((regs [(0xF, 5)] State.reset).setIdx 0x300))).map (fun t => (pixel t.fb 5 0, pixel t.fb 0 0, t.reg 0xF)) = some (true, false, 0) := by decide
/-- T4-11: a collision on row 0 is not cancelled by row 1. -/
theorem test_drw_collides :
    (after 0xD012 (bytes 0x300 [0x80, 0x00] ((State.reset.setIdx 0x300).setFb (drawPixel clearDisplay 0 0).1))).map (fun t => (pixel t.fb 0 0, t.reg 0xF)) = some (false, 1) := by decide
/-- S2: coordinates wrap. -/
theorem test_drawPixel_wraps :
    (pixel (drawPixel clearDisplay 66 5).1 2 5, pixel (drawPixel clearDisplay 5 33).1 5 1, (drawPixel (drawPixel clearDisplay 66 5).1 2 5).2) = (true, true, true) := by decide

/-! ### Keyboard (T5) -/

/-- T5-1. -/
theorem test_skp :
    (after 0xE59E ((regs [(5, 7)] State.reset).addKey 7)).map (fun t => t.pc) = some 0x204 := by decide
/-- T5-5: a code above 15 is not pressed. -/
theorem test_skp_high_code :
    (after 0xE59E ((regs [(5, 0x17)] State.reset).addKey 7)).map (fun t => t.pc) = some 0x202 := by decide
/-- T5-3. -/
theorem test_sknp :
    (after 0xE5A1 (regs [(5, 7)] State.reset)).map (fun t => t.pc) = some 0x204 := by decide
/-- T5-4. -/
theorem test_sknp_pressed :
    (after 0xE5A1 ((regs [(5, 7)] State.reset).addKey 7)).map (fun t => t.pc) = some 0x202 := by decide
/-- T5-6: the step that starts the wait still decrements. -/
theorem test_ldVxK :
    (after 0xF30A ((regs [(3, 0x44)] State.reset).setDt 2)).map (fun t => (t.paused, t.pending, t.pc, t.reg 3, t.dt)) = some (true, some 3, 0x202, 0x44, 1) := by decide
/-- T5-10: a repeat fires the wait. -/
theorem test_keyDown_repeat :
    (next? (onKeyDown 7 (((State.reset.addKey 7).setPaused true).setOnKeyPress 3))).map
      (fun t => (t.reg 3, t.paused, t.pending, t.isPressed 7)) = some (7, false, none, true) := by decide
/-- T5-8: a key-up does not end the wait. -/
theorem test_keyUp_waiting :
    (next? (onKeyUp 3 (((State.reset.addKey 3).setPaused true).setOnKeyPress 3))).map
      (fun t => (t.isPressed 3, t.paused, t.pending)) = some (false, true, some 3) := by decide
/-- T5-14. -/
theorem test_keyDown_16 :
    refusal? (onKeyDown 16 State.reset) = some (.badKeyCode 16) := by decide

/-! ### Timers (T6) -/

/-- T6-1 under after_execute. -/
theorem test_ldDTVx :
    (after 0xF015 (regs [(0, 10)] State.reset)).map (fun t => t.dt) = some 9 := by decide
/-- T6-1 under before_fetch. -/
theorem test_ldDTVx_before :
    (after 0xF015 (regs [(0, 10)] (under beforeFetch))).map (fun t => t.dt) = some 10 := by decide
/-- T6-4. -/
theorem test_ldSTVx :
    (after 0xF418 (regs [(4, 3)] State.reset)).map (fun t => t.st) = some 2 := by decide
/-- T6-5 under after_execute. -/
theorem test_ldVxDT :
    (after 0xF307 (State.reset.setDt 0x20)).map (fun t => (t.reg 3, t.dt)) = some (0x20, 0x1F) := by decide
/-- T6-5 under before_fetch. -/
theorem test_ldVxDT_before :
    (after 0xF307 ((under beforeFetch).setDt 0x20)).map (fun t => (t.reg 3, t.dt)) = some (0x1F, 0x1F) := by decide

/-! ### Reset and the host (T7) -/

/-- T7-2. -/
theorem test_reset_ends_the_wait :
    (next? (hostReset (((regs [(3, 5)] State.reset).setPaused true).setOnKeyPress 3))).map (fun t => (t.paused, t.pending, t.reg 3)) = some (false, none, 0) := by decide
/-- T7-6. -/
theorem test_loadProgram :
    (next? (loadProgram [0x12, 0x00] ((regs [(0, 9)] State.reset).setPc 0x206))).map
      (fun t => (t.byteAt 0x200, t.byteAt 0x201, t.pc, t.reg 0)) = some (0x12, 0, 0x206, 9) := by decide
/-- A faulted state takes no step (R39). -/
theorem test_faulted_step :
    next? (step (State.reset.markFault (.outOfRange 0x1000))) = none := by decide

/-! ### Witnesses: a concrete state and operands that meet the hypotheses of each statement, clause by clause -/

/-- The state about to fetch `w`. -/
def ready (w : Nat) (s : State) : State := s.withFetchWord 16 w

/-- A decided fetch is a fetch. -/
theorem fetches_of {s : State} {hi lo : Byte} (h : s.fetch = .ok (hi, lo)) : s.Fetches (wordOfBytes hi lo) :=
  ⟨hi, lo, h, rfl⟩

theorem witness_ReadGivesTheLatestWrite :
    (∃ t, State.reset.memWrite 0x1300 7 = .ok t) ∧ eff State.reset.params.oob 0x1300 = .ok 0x300 ∧
      eff State.reset.params.oob 0x300 = .ok 0x300 ∧ eff State.reset.params.oob 0x2301 = .ok 0x301 ∧ 0x301 ≠ 0x300 :=
  ⟨⟨_, rfl⟩, rfl, rfl, rfl, by decide⟩

theorem witness_EffectiveAddressFollowsThePolicy : 0xFFF ≤ 0xFFF ∧ 0xFFF < 0x1000 := by decide

theorem witness_ResetStateHoldsTheTableOfValues : 79 < 80 ∧ 80 ≤ 80 := by decide

/-- Under wrap at the highest `PC`; under fault at the highest `PC` whose two bytes are in range. -/
theorem witness_FetchReadsTwoBytesHighFirst :
    InReach (State.reset.setPc 0xFFFF).params.oob (State.reset.setPc 0xFFFF).pc.toNat 2 ∧
      InReach ((under oobFault).setPc 0xFFE).params.oob ((under oobFault).setPc 0xFFE).pc.toNat 2 :=
  ⟨(fun h => by cases h), fun _ => .inr (by decide)⟩

theorem witness_DecodeOfEncodeIsTheInstruction : (Instr.drw 0 15 7).wellFormed = true := rfl

theorem witness_StrictDecodingIsTheOpcodeMap :
    0x8F1E &&& rowMask .strict (.shl 3 4) = rowMatch (.shl 3 4) ∧ decode .strict 0x8F1E = .instr (.shl 0xF 1) ∧
      0x8F1E &&& rowMask .strict (.shl 0xF 1) = rowMatch (.shl 0xF 1) := by decide

theorem witness_DecodeModesDisagreeOnlyOnFixedDigits :
    decode .strict 0xFEE ≠ decode .keyed 0xFEE ∧ decode .strict 0x512F ≠ decode .keyed 0x512F ∧
      decode .strict 0x9121 ≠ decode .keyed 0x9121 := by decide

/-- The four clauses: no mark, a mark, before_fetch, a refusal. -/
theorem witness_StepRunsTheDecodedInstruction :
    (∃ s w i t, State.Running s ∧ s.Fetches w ∧ decode s.params.decode w = .instr i ∧ s.params.timers = .afterExecute ∧
      exec i (s.setPc (s.pc + 2)) = .next t ∧ t.faulted = none) ∧
    (∃ s w i t f, State.Running s ∧ s.Fetches w ∧ decode s.params.decode w = .instr i ∧ s.params.timers = .afterExecute ∧
      exec i (s.setPc (s.pc + 2)) = .next t ∧ t.faulted = some f) ∧
    (∃ s w i t, State.Running s ∧ s.Fetches w ∧ decode s.params.decode w = .instr i ∧ s.params.timers = .beforeFetch ∧
      exec i (s.decTimers.setPc (s.pc + 2)) = .next t) ∧
    (∃ s w i, State.Running s ∧ s.Fetches w ∧ decode s.params.decode w = .instr i ∧
      exec i (s.timersBefore.setPc (s.pc + 2)) = .refused .vfOperand) := by
  refine ⟨⟨ready 0x6005 .reset, 0x6005, .ldImm 0 5, _, ⟨rfl, rfl⟩, fetches_of (hi := 0x60) (lo := 5) rfl, rfl, rfl, rfl,
      rfl⟩,
    ⟨ready 0x00EE ((under stackFault).setSp 16), 0x00EE, .ret, _, _, ⟨rfl, rfl⟩, fetches_of (hi := 0) (lo := 0xEE) rfl, rfl,
      rfl, rfl, rfl⟩,
    ⟨ready 0x6005 (under beforeFetch), 0x6005, .ldImm 0 5, _, ⟨rfl, rfl⟩, fetches_of (hi := 0x60) (lo := 5) rfl, rfl, rfl,
      rfl⟩,
    ⟨ready 0x8F15 (under refuse), 0x8F15, .subReg 0xF 1, ⟨rfl, rfl⟩, fetches_of (hi := 0x8F) (lo := 0x15) rfl, rfl, rfl⟩⟩

/-- A waiting state; a key-down that ends the wait, and a reset that does. -/
theorem witness_PausedStepChangesNothing :
    ((State.reset.setPaused true).setOnKeyPress 3).paused = true ∧
      ((State.reset.setPaused true).setOnKeyPress 3).faulted = none ∧
      (∃ t, hostApply (.onKeyDown 15) ((State.reset.setPaused true).setOnKeyPress 3) = .next t ∧ t.paused = false) ∧
      (∃ t, hostApply .reset ((State.reset.setPaused true).setOnKeyPress 3) = .next t ∧ t.paused = false) :=
  ⟨rfl, rfl, ⟨_, rfl, rfl⟩, ⟨_, rfl, rfl⟩⟩

theorem witness_UnrecognizedWordIsANoOp :
    (ready 0x8008 .reset).Running ∧ (ready 0x8008 .reset).Fetches 0x8008 ∧
      decode (ready 0x8008 .reset).params.decode 0x8008 = .unrecognized 0x8008 :=
  ⟨⟨rfl, rfl⟩, fetches_of (hi := 0x80) (lo := 8) rfl, rfl⟩

/-- Both ends of the range of `PC` and both timer orders. -/
theorem witness_FetchFaultLeavesTheProgramCounter :
    (((under oobFault).setPc 0xFFF).Running ∧ ((under oobFault).setPc 0xFFF).params.oob = .fault ∧
      0xFFF ≤ ((under oobFault).setPc 0xFFF).pc.toNat ∧ oobFault.timers = .afterExecute) ∧
    ((under { oobFault with timers := .beforeFetch }).setPc 0xFFFF).Running ∧
      ((under { oobFault with timers := .beforeFetch }).setPc 0xFFFF).params.oob = .fault ∧
      0xFFF ≤ ((under { oobFault with timers := .beforeFetch }).setPc 0xFFFF).pc.toNat :=
  ⟨⟨⟨rfl, rfl⟩, rfl, by decide, rfl⟩, ⟨rfl, rfl⟩, rfl, by decide⟩

theorem witness_FaultedStateTakesNoStep :
    (State.reset.markFault (.stackOutOfRange 16)).faulted = some (.stackOutOfRange 16) ∧
      ∃ t, hostApply .reset (State.reset.markFault (.stackOutOfRange 16)) = .next t := ⟨rfl, _, rfl⟩

theorem witness_EveryWordExecutesToCompletion : State.reset.params.NoFaults ∧ State.reset.faulted = none :=
  ⟨⟨by decide, rfl, rfl⟩, rfl⟩

/-- Each clause: a skip, a jump, a call and a return that complete and fault, and another instruction. -/
theorem witness_OnlySkipsJumpsCallsReturnsMoveThePc :
    (∃ t, exec (.skp 0) State.reset = .next t) ∧ (∃ t, exec (.jp 0xFFF) State.reset = .next t) ∧
    (∃ t, exec (.call 0) State.reset = .next t ∧ t.faulted = none) ∧
    (∃ t, exec (.call 0) ((under stackFault).setSp 15) = .next t ∧ t.faulted ≠ none) ∧
    (∃ t, exec .ret State.reset = .next t ∧ t.faulted = none) ∧
    (∃ t, exec .ret ((under stackFault).setSp 16) = .next t ∧ t.faulted ≠ none) ∧
    (∃ t, exec (.ldIV0 0x300) State.reset = .next t) :=
  ⟨⟨_, rfl⟩, ⟨_, rfl⟩, ⟨_, rfl, rfl⟩, ⟨_, rfl, by decide⟩, ⟨_, rfl, rfl⟩, ⟨_, rfl, by decide⟩, ⟨_, rfl⟩⟩

theorem witness_OnlyFourInstructionsWriteTheIndex :
    ∃ t, exec (.ldI 0x123) State.reset = .next t ∧ t.idx ≠ State.reset.idx := ⟨_, rfl, by decide⟩

theorem witness_OnlyCallAndReturnUseTheStack :
    ∃ t, exec (.call 0x300) State.reset = .next t ∧ t.sp ≠ State.reset.sp ∧ ∃ j, t.slot j ≠ State.reset.slot j :=
  ⟨_, rfl, by decide, 1, by decide⟩

/-- A pixel, the wait, and a step. -/
theorem witness_StepsTouchDisplayAndKeyboardOnlyByTheirInstructions :
    (∃ t, exec .cls (State.reset.setFb (drawPixel clearDisplay 63 31).1) = .next t ∧
      ∃ c r, pixel t.fb c r ≠ pixel (State.reset.setFb (drawPixel clearDisplay 63 31).1).fb c r) ∧
    (∃ t, exec (.ldVxK 0) State.reset = .next t ∧ t.pending ≠ State.reset.pending) ∧
    (∃ t, step State.reset = .next t ∧ t.pending = none) :=
  ⟨⟨_, rfl, 63, 31, by decide⟩, ⟨_, rfl, by decide⟩, ⟨_, rfl, rfl⟩⟩

/-- A paused step, and a running one that sets no timer. -/
theorem witness_TimersCountUnpausedSteps :
    (∃ s t, step s = .next t ∧ t.faulted = none ∧ s.paused = true) ∧
    (∃ s t, step s = .next t ∧ t.faulted = none ∧ s.paused = false ∧ (∀ x, ¬ s.AboutToRun (.ldDTVx x)) ∧
      ∀ x, ¬ s.AboutToRun (.ldSTVx x)) := by
  refine ⟨⟨(State.reset.setPaused true).setOnKeyPress 0, _, rfl, rfl, rfl⟩, ⟨State.reset, _, rfl, rfl, rfl, ?_, ?_⟩⟩
  all_goals
    rintro x ⟨-, w, ⟨hi, lo, hf, rfl⟩, hd⟩
    cases (show Except.ok (0, 0) = Except.ok (hi, lo) from hf)
    cases hd

theorem witness_ProgramsCannotTellTheTimerOrdersApart :
    (under beforeFetch).params.NoFaults ∧ (under beforeFetch).params.timers = .beforeFetch ∧
      (under beforeFetch).faulted = none ∧ ∃ t, core.run 2 (under beforeFetch) = .next t :=
  ⟨⟨by decide, rfl, rfl⟩, rfl, rfl, _, rfl⟩

theorem witness_EndedRunChangesOnlyTheTimers : (ready 0x1200 .reset).EndedAt 0x200 :=
  ⟨⟨rfl, rfl⟩, rfl, fetches_of (hi := 0x12) (lo := 0) rfl⟩

/-- A state that meets the invariant, with a listed byte and a wait, and its step. -/
theorem witness_EveryStepKeepsTheInvariant :
    (((State.reset.setByte 0x300 7).setPaused true).setOnKeyPress 3).Inv ∧
      ∃ t, step (((State.reset.setByte 0x300 7).setPaused true).setOnKeyPress 3) = .next t :=
  ⟨⟨by decide, by decide⟩, _, rfl⟩

theorem witness_EveryHostSequenceKeepsTheInvariant :
    State.reset.Inv ∧ ∃ t, hostRun [.loadProgram [0xF3, 0x0A], .step, .onKeyDown 7, .onKeyUp 7, .getDisplay, .reset]
      State.reset = .next t := ⟨⟨by decide, by decide⟩, _, rfl⟩

/-- `mod16` at any `SP`, `fault` with the incremented `SP` at 15 and wrapped to 0, and at 16. -/
theorem witness_CallPushesTheReturnAddress :
    (State.reset.setSp 254).params.stack = .mod16 ∧ (((under stackFault).setSp 14).sp + 1).toNat < 16 ∧
      (((under stackFault).setSp 255).sp + 1).toNat < 16 ∧
      (((under stackFault).setSp 15).params.stack = .fault ∧ 16 ≤ (((under stackFault).setSp 15).sp + 1).toNat) := by
  decide

theorem witness_ReturnPopsTheSlotAtSp :
    (State.reset.setSp 255).params.stack = .mod16 ∧ ((under stackFault).setSp 15).sp.toNat < 16 ∧
      (((under stackFault).setSp 16).params.stack = .fault ∧ 16 ≤ ((under stackFault).setSp 16).sp.toNat) := by decide

/-- 16 and 17 nested calls. -/
theorem witness_SixteenNestedCallsReturn :
    State.reset.params.stack = .mod16 ∧ (∃ t, nestCalls (List.replicate 16 (0x202, 0x300)) State.reset = .next t) ∧
      (∃ t, nestCalls (List.replicate 17 (0x202, 0x300)) State.reset = .next t) ∧
      (List.replicate 16 ((0x202, 0x300) : Word × Addr12)).length ≤ 16 ∧
      (List.replicate 17 ((0x202, 0x300) : Word × Addr12)).length = 17 := ⟨rfl, ⟨_, rfl⟩, ⟨_, rfl⟩, by decide, by decide⟩

theorem witness_AddSetsTheCarry : (0xE : Reg) ≠ VF := by decide

theorem witness_SubtractSetsTheStrictFlag : (0xE : Reg) ≠ VF ∧ (0 : Reg) ≠ VF := by decide

theorem witness_ShiftsByOneSetTheBitShiftedOut : (0xE : Reg) ≠ VF := by decide

theorem witness_FlagInstructionsWithVfAsOperand : State.reset.params.vfAlias = .sequential ∧ (0xE : Reg) ≠ VF := by decide

/-- The operand at `VF` on either side of SUB and SUBN, and on the left of SHR and SHL; and a step that sets the mark. -/
theorem witness_RefusedVfOperandLeavesTheStateBeforeTheStep :
    UsesVfAsOperand (.subReg VF 1) ∧ UsesVfAsOperand (.subn 1 VF) ∧ UsesVfAsOperand (.shl VF 1) ∧
    (∃ s t, step s = .next t ∧ t.faulted = some (.vfOperand 0x8F15)) ∧
    ((ready 0x8F15 (under refuse)).params.vfAlias = .refuse ∧ (ready 0x8F15 (under refuse)).Running ∧
      (ready 0x8F15 (under refuse)).Fetches 0x8F15 ∧
      decode (ready 0x8F15 (under refuse)).params.decode 0x8F15 = .instr (.subReg VF 1)) ∧
    ((ready 0x81F7 (under refuse)).Running ∧ (ready 0x81F7 (under refuse)).Fetches 0x81F7 ∧
      decode (ready 0x81F7 (under refuse)).params.decode 0x81F7 = .instr (.subn 1 VF)) ∧
    ((ready 0x8F1E (under refuse)).Running ∧ (ready 0x8F1E (under refuse)).Fetches 0x8F1E ∧
      decode (ready 0x8F1E (under refuse)).params.decode 0x8F1E = .instr (.shl VF 1)) :=
  ⟨.inl ⟨_, _, .inl rfl, .inl rfl⟩, .inl ⟨_, _, .inr rfl, .inr rfl⟩, .inr ⟨_, .inr rfl⟩,
    ⟨ready 0x8F15 (under refuse), _, rfl, rfl⟩, ⟨rfl, ⟨rfl, rfl⟩, fetches_of (hi := 0x8F) (lo := 0x15) rfl, rfl⟩,
    ⟨⟨rfl, rfl⟩, fetches_of (hi := 0x81) (lo := 0xF7) rfl, rfl⟩,
    ⟨⟨rfl, rfl⟩, fetches_of (hi := 0x8F) (lo := 0x1E) rfl, rfl⟩⟩

/-- Under wrap anywhere; under fault up to the last address. -/
theorem witness_DecimalStoreWritesThreeDigits :
    InReach State.reset.params.oob (State.reset.setIdx 0xFFFF).idx.toNat 3 ∧
      InReach oobFault.oob ((under oobFault).setIdx 0xFFD).idx.toNat 3 :=
  ⟨(fun h => by cases h), fun _ => .inr (by decide)⟩

theorem witness_RegisterStoreWritesAscending :
    InReach State.reset.params.oob (State.reset.setIdx 0xFFFF).idx.toNat ((15 : Reg).toNat + 1) ∧
      InReach oobFault.oob ((under oobFault).setIdx 0xFF0).idx.toNat ((15 : Reg).toNat + 1) :=
  ⟨(fun h => by cases h), fun _ => .inr (by decide)⟩

/-- And a register at the end of the range and one above it. -/
theorem witness_RegisterLoadReadsAscending :
    InReach oobFault.oob ((under oobFault).setIdx 0xFF1).idx.toNat ((14 : Reg).toNat + 1) ∧
      (14 : Reg).toNat ≤ (14 : Reg).toNat ∧ eff oobFault.oob (0xFF1 + (14 : Reg).toNat) = .ok 0xFFF ∧
      (14 : Reg).toNat < (15 : Reg).toNat := ⟨fun _ => .inr (by decide), by decide, rfl, by decide⟩

theorem witness_StoresFaultAtTheFirstAddressOutOfRange :
    ((under oobFault).setIdx 0xFFE).params.oob = .fault ∧ memSize < ((under oobFault).setIdx 0xFFE).idx.toNat + 3 ∧
      memSize < ((under oobFault).setIdx 0xFFF).idx.toNat + ((1 : Reg).toNat + 1) := by decide

theorem witness_LoadsAndDrawsFaultAtTheFirstAddressOutOfRange :
    ((under oobFault).setIdx 0xFFF).params.oob = .fault ∧ (2 : Nibble) ≠ 0 ∧
      memSize < ((under oobFault).setIdx 0xFFF).idx.toNat + ((1 : Reg).toNat + 1) ∧
      memSize < ((under oobFault).setIdx 0xFFF).idx.toNat + (2 : Nibble).toNat := by decide

/-- Under fault, a store and a fetch that end at the last address, and the longest image; and the clause under wrap. -/
theorem witness_StoreIntoCodeIsFetched :
    InReach (under oobFault).params.oob (0xFFE : Word).toNat 2 ∧
      InReach oobFault.oob ((under oobFault).setIdx 0xFFD).idx.toNat 3 ∧
      InReach oobFault.oob ((under oobFault).setIdx 0xFFF).idx.toNat ((0 : Reg).toNat + 1) ∧
      (List.replicate 3584 (0 : Byte)).length ≤ 3584 ∧
    State.reset.params.oob = .wrap ∧ (1 : Reg) ≠ 0 ∧
      (State.reset.setIdx 0x1200).idx.toNat % memSize = (State.reset.setIdx 0x1200).pc.toNat % memSize :=
  ⟨fun _ => .inr (by decide), fun _ => .inr (by decide), fun _ => .inr (by decide), by rw [List.length_replicate], by decide⟩

theorem witness_DrawPixelFlipsAndReportsCollision : 63 < dispW ∧ 31 < dispH := by decide

/-- In reach under wrap, with no row at any index under fault, and up to the last address; with and without a collision. -/
theorem witness_DrawXorsTheSpriteAndReportsCollision :
    InReach State.reset.params.oob (State.reset.setIdx 0xFFFF).idx.toNat (15 : Nibble).toNat ∧
      InReach oobFault.oob ((under oobFault).setIdx 0xFFFF).idx.toNat (0 : Nibble).toNat ∧
      InReach oobFault.oob ((under oobFault).setIdx 0xFF1).idx.toNat (15 : Nibble).toNat ∧
      Collides (State.reset.setFb (drawPixel clearDisplay 0 0).1) 0 0 5 ∧ ¬ Collides State.reset 0 0 5 := by
  refine ⟨(fun h => by cases h), fun _ => .inl (by decide), fun _ => .inr (by decide), ?_, ?_⟩
  · exact ⟨0, 0, by decide, by decide, ⟨0, 0, 0xF0, by decide, by decide, rfl, by decide, by decide, by decide⟩, by decide⟩
  · rintro ⟨c, r, -, -, -, h⟩
    rw [State.reset, pixel_resetWith] at h
    cases h

/-- A pending wait and none, at the highest key code. -/
theorem witness_KeyDownFiresThePendingWait :
    15 ≤ 15 ∧ ((State.reset.setPaused true).setOnKeyPress 3).pending = some 3 ∧ State.reset.pending = none := by decide

theorem witness_KeyUpOnlyRemovesTheKey : 15 ≤ 15 := by decide

theorem witness_WaitHoldsUntilAKeyDown : (ready 0xF30A .reset).AboutToRun (.ldVxK 3) ∧ 15 ≤ 15 :=
  ⟨⟨⟨rfl, rfl⟩, _, fetches_of (hi := 0xF3) (lo := 0x0A) rfl, rfl⟩, by decide⟩

theorem witness_OnlyBadArgumentsAreRefused :
    15 < 16 ∧ 3584 < (List.replicate 3585 (0 : Byte)).length ∧ (HostOp.onKeyDown 15).wellFormed = true ∧
      State.reset.faulted = none := ⟨by decide, by rw [List.length_replicate]; decide, by decide, rfl⟩

theorem witness_TimerStepsAsTheHostSeesThem :
    (ready 0xF015 .reset).AboutToRun (.ldDTVx 0) ∧ (ready 0xF418 (under beforeFetch)).AboutToRun (.ldSTVx 4) ∧
      (ready 0xF307 .reset).AboutToRun (.ldVxDT 3) :=
  ⟨⟨⟨rfl, rfl⟩, _, fetches_of (hi := 0xF0) (lo := 0x15) rfl, rfl⟩,
    ⟨⟨rfl, rfl⟩, _, fetches_of (hi := 0xF4) (lo := 0x18) rfl, rfl⟩,
    ⟨⟨rfl, rfl⟩, _, fetches_of (hi := 0xF3) (lo := 0x07) rfl, rfl⟩⟩

/-- The longest image; and an address before it and one past a short one. -/
theorem witness_LoadProgramCopiesTheImage :
    (List.replicate 3584 (0 : Byte)).length ≤ 3584 ∧ 0 < [(0x12 : Byte), 0x00].length ∧ 0x1FF < 0x200 ∧
      0x200 + [(0x12 : Byte), 0x00].length ≤ 0x202 := ⟨by rw [List.length_replicate], by decide, by decide, by decide⟩

end Sys2Proof.Tests
end

section
/-! PROOFS. Strict decoding against the match and mask table of R75: a word matches a row exactly when the digits that the
row fixes agree, and the decoder reads just those digits. -/

namespace Sys2Proof

/-! ### A masked word is a row's match when the fixed digits agree -/

theorem and_op_eq_iff {w v : Word} (hv : v &&& 0xF000 = v) : w &&& 0xF000 = v ↔ fieldOp w = fieldOp v := by
  have fixedDigits (u : Word) : u &&& 0xF000 = wordNnn (fieldOp u) 0 := by
    rw [← wordNnn_and_op _ (fieldNnn u), wordNnn_fields]
  rw [← hv, fixedDigits w, fixedDigits v, fieldOp_wordNnn]
  exact ⟨fun h => by simpa using congrArg fieldOp h, fun h => by rw [h]⟩

theorem and_opN_eq_iff {w v : Word} (hv : v &&& 0xF00F = v) :
    w &&& 0xF00F = v ↔ fieldOp w = fieldOp v ∧ fieldN w = fieldN v := by
  have fixedDigits (u : Word) : u &&& 0xF00F = wordXyn (fieldOp u) 0 0 (fieldN u) := by
    rw [← wordXyn_and_opN _ (fieldX u) (fieldY u), wordXyn_fields]
  rw [← hv, fixedDigits w, fixedDigits v, fieldOp_wordXyn, fieldN_wordXyn]
  exact ⟨fun h => ⟨by simpa using congrArg fieldOp h, by simpa using congrArg fieldN h⟩,
    fun ⟨hop, hn⟩ => by rw [hop, hn]⟩

theorem and_opKk_eq_iff {w v : Word} (hv : v &&& 0xF0FF = v) :
    w &&& 0xF0FF = v ↔ fieldOp w = fieldOp v ∧ fieldKk w = fieldKk v := by
  have fixedDigits (u : Word) : u &&& 0xF0FF = wordXkk (fieldOp u) 0 (fieldKk u) := by
    rw [← wordXkk_and_opKk _ (fieldX u), wordXkk_fields]
  rw [← hv, fixedDigits w, fixedDigits v, fieldOp_wordXkk, fieldKk_wordXkk]
  exact ⟨fun h => ⟨by simpa using congrArg fieldOp h, by simpa using congrArg fieldKk h⟩,
    fun ⟨hop, hkk⟩ => by rw [hop, hkk]⟩

/-! ### A word that matches a row decodes to an instruction of the row -/

theorem decode_of_matches {w : Word} {i : Instr} (h : w &&& rowMask .strict i = rowMatch i) :
    ∃ j, decode .strict w = .instr j ∧ rowMatch j = rowMatch i := by
  cases i <;> rw [rowMatch] at h
  case cls | ret =>  -- the mask fixes all digits, so `w` is the row's one word
    obtain rfl := BitVec.and_allOnes.symm.trans h
    exact ⟨_, rfl, rfl⟩
  case jp | call | seImm | sneImm | ldImm | addImm | ldI | ldIV0 | rnd | drw =>
    have hop := (and_op_eq_iff rfl).mp h
    rw [decode, hop]
    exact ⟨_, rfl, rfl⟩
  case seReg | sneReg =>
    obtain ⟨hop, hn⟩ := (and_opN_eq_iff rfl).mp h
    rw [decode, hop, hn]
    exact ⟨_, rfl, rfl⟩
  case ldReg | orReg | andReg | xorReg | addReg | subReg | shr | subn | shl =>
    obtain ⟨hop, hn⟩ := (and_opN_eq_iff rfl).mp h
    rw [decode, hop, decodeAlu, hn]
    exact ⟨_, rfl, rfl⟩
  case skp | sknp =>
    obtain ⟨hop, hkk⟩ := (and_opKk_eq_iff rfl).mp h
    rw [decode, hop, decodeKey, hkk]
    exact ⟨_, rfl, rfl⟩
  case ldVxDT | ldVxK | ldDTVx | ldSTVx | addI | ldF | ldB | stRegs | ldRegs =>
    obtain ⟨hop, hkk⟩ := (and_opKk_eq_iff rfl).mp h
    rw [decode, hop, decodeMisc, hkk]
    exact ⟨_, rfl, rfl⟩

/-! ### A word that decodes to an instruction matches its row, one lemma per second selector -/

theorem fixedZero_strict {digit : Nibble} : fixedZero .strict digit = true ↔ digit = 0 := by simp [fixedZero]

theorem matches_of_decodeSys {w : Word} {i : Instr} (hop : fieldOp w = 0) (h : decodeSys .strict w = .instr i) :
    w &&& rowMask .strict i = rowMatch i := by
  unfold decodeSys at h
  split at h <;> cases h
  all_goals
    rename_i hzero hkk
    have hx : fieldX w = 0 := fixedZero_strict.mp hzero
    rw [← wordXkk_fields w, hop, hx, (BitVec.toNat_eq_nat.mp hkk).2]
    rfl

theorem matches_of_decodeAlu {w : Word} {i : Instr} (hop : fieldOp w = 8) (h : decodeAlu w = .instr i) :
    w &&& rowMask .strict i = rowMatch i := by
  unfold decodeAlu at h
  split at h <;> cases h
  all_goals
    rename_i hn
    rw [rowMatch]
    exact (and_opN_eq_iff rfl).mpr ⟨hop, BitVec.eq_of_toNat_eq hn⟩

theorem matches_of_decodeKey {w : Word} {i : Instr} (hop : fieldOp w = 0xE) (h : decodeKey w = .instr i) :
    w &&& rowMask .strict i = rowMatch i := by
  unfold decodeKey at h
  split at h <;> cases h
  all_goals
    rename_i hkk
    rw [rowMatch]
    exact (and_opKk_eq_iff rfl).mpr ⟨hop, BitVec.eq_of_toNat_eq hkk⟩

theorem matches_of_decodeMisc {w : Word} {i : Instr} (hop : fieldOp w = 0xF) (h : decodeMisc w = .instr i) :
    w &&& rowMask .strict i = rowMatch i := by
  unfold decodeMisc at h
  split at h <;> cases h
  all_goals
    rename_i hkk
    rw [rowMatch]
    exact (and_opKk_eq_iff rfl).mpr ⟨hop, BitVec.eq_of_toNat_eq hkk⟩

theorem matches_of_decode {w : Word} {i : Instr} (h : decode .strict w = .instr i) :
    w &&& rowMask .strict i = rowMatch i := by
  unfold decode at h
  split at h <;> rename_i hop
  case h_1 => exact matches_of_decodeSys (BitVec.eq_of_toNat_eq hop) h
  case h_9 => exact matches_of_decodeAlu (BitVec.eq_of_toNat_eq hop) h
  case h_15 => exact matches_of_decodeKey (BitVec.eq_of_toNat_eq hop) h
  case h_16 => exact matches_of_decodeMisc (BitVec.eq_of_toNat_eq hop) h
  case h_6 | h_10 =>
    split at h <;> cases h
    rename_i hzero
    have hn : fieldN w = 0 := fixedZero_strict.mp hzero
    rw [rowMatch]
    exact (and_opN_eq_iff rfl).mpr ⟨BitVec.eq_of_toNat_eq hop, hn⟩
  case h_17 => cases h
  all_goals
    cases h
    rw [rowMatch]
    exact (and_op_eq_iff rfl).mpr (BitVec.eq_of_toNat_eq hop)

/-- Settles O8: the two directions are `decode_of_matches` and `matches_of_decode`, and a word cannot match two rows because
it has one decoding. -/
theorem strictDecodingIsTheOpcodeMap : Obligations.StrictDecodingIsTheOpcodeMap := by
  refine fun w => ⟨fun _ => decode_of_matches, fun _ => matches_of_decode, fun i j hi hj => ?_⟩
  obtain ⟨i', hdi, hri⟩ := decode_of_matches hi
  obtain ⟨j', hdj, hrj⟩ := decode_of_matches hj
  have hij : i' = j' := Decoded.instr.inj (hdi.symm.trans hdj)
  rw [← hri, hij, hrj]

end Sys2Proof
end

section
/-! PROOFS. The step: while the block is paused, and on a word that decodes to no instruction (R91, R97, R98). -/

namespace Sys2Proof.Machine

/-! ### A step while paused -/

theorem step_of_paused {s : State} (hp : s.paused = true) (hf : s.faulted = none) : step s = .next s := by
  rcases step_cases s hf with ⟨-, h⟩ | ⟨hrun, -⟩ | ⟨⟨-, hrun⟩, -⟩
  · exact h
  · cases hp.symm.trans hrun
  · cases hp.symm.trans hrun

/-- A state that a step leaves as it is stays so for any number of steps. -/
theorem run_of_step_eq {M : Host.Core} {s : M.State} (h : M.step s = .next s) : ∀ n, M.run n s = .next s
  | 0 => rfl
  | n + 1 => by
    rw [Host.Core.run, h]
    exact run_of_step_eq h n

/-! ### The host's operations on a paused block -/

theorem step_of_faulted {s : State} {f : ModelFault} (hf : s.faulted = some f) : step s = .fault (.faulted f) := by
  simp only [step, cycle, hf]

theorem paused_of_step {s t : State} (hp : s.paused = true) (h : step s = .next t) : t.paused = s.paused := by
  cases hf : s.faulted with
  | none =>
    rw [step_of_paused hp hf] at h
    cases h
    rfl
  | some f =>
    rw [step_of_faulted hf] at h
    cases h

theorem paused_of_loadProgram {bytes : List Byte} {s t : State} (h : loadProgram bytes s = .next t) :
    t.paused = s.paused := by
  unfold loadProgram at h
  split at h <;> cases h
  obtain ⟨m, hm⟩ := copyImage_shape bytes progBase s
  rw [hm]

theorem paused_of_onKeyUp {key : Nat} {s t : State} (h : onKeyUp key s = .next t) : t.paused = s.paused := by
  unfold onKeyUp at h
  split at h <;> cases h
  exact s.removeKey_paused _

/-- Settles O13: a paused step is a fixed point of `step`, and every operation but a key-down and a reset keeps `paused`. -/
theorem pausedStepChangesNothing : Obligations.PausedStepChangesNothing := by
  intro s hp
  refine ⟨fun hf => ⟨step_of_paused hp hf, run_of_step_eq (step_of_paused hp hf)⟩, fun op t h ht => ?_⟩
  have kept (hk : t.paused = s.paused) : False := by
    rw [hk, hp] at ht
    cases ht
  cases op with
  | reset => exact .inl rfl
  | onKeyDown key => exact .inr ⟨key, rfl⟩
  | step => exact (kept (paused_of_step hp h)).elim
  | loadProgram bytes => exact (kept (paused_of_loadProgram h)).elim
  | onKeyUp key => exact (kept (paused_of_onKeyUp h)).elim
  | getDisplay =>
    cases h
    exact (kept rfl).elim

/-! ### A step on an unrecognized word -/

/-- Whichever side of the step the decrement stands on, a step that executes nothing decrements once (R96, R98). -/
theorem State.timersAfter_advance_timersBefore {s : State} (hf : s.faulted = none) :
    s.timersBefore.advance.timersAfter = s.decTimers.advance := by
  cases ho : s.params.timers with
  | afterExecute =>
    have hcomm : s.advance.decTimers = s.decTimers.advance := rfl
    simp [State.timersBefore_eq, State.timersAfter_eq, ho, hf, hcomm]
  | beforeFetch => simp [State.timersBefore_eq, State.timersAfter_eq, ho]

theorem runWord_of_unrecognized {w u : Word} {s : State} (before : State)
    (hd : decode s.params.decode w = .unrecognized u) : runWord w before s = .next s.timersAfter := by
  simp only [runWord, hd]

theorem step_of_unrecognized {s : State} {w u : Word} (hr : s.Running) (hw : s.Fetches w)
    (hd : decode s.params.decode w = .unrecognized u) : step s = .next s.decTimers.advance := by
  have hd' : decode s.timersBefore.advance.params.decode w = .unrecognized u := by
    rwa [State.advance_params, State.timersBefore_params]
  have hf : s.faulted = none := hr.left
  rw [step_of_fetches hr hw, runWord_of_unrecognized s hd', State.timersAfter_advance_timersBefore hf]

theorem frame_decTimers_advance (s : State) : Frame s s.decTimers.advance [.pc, .dt, .st] := by
  intro p hp
  cases p with
  | pc | dt | st => simp at hp
  | mem | v | stack => exact fun _ => rfl
  | fb => exact fun _ _ => rfl
  | idx | sp | paused | pressed | pending | faulted | draws | params => exact rfl

/-- Settles O14: `step_of_unrecognized` gives the next state, the state with the timers decremented and `PC` advanced. -/
theorem unrecognizedWordIsANoOp : Obligations.UnrecognizedWordIsANoOp := fun s _ hr hw hd =>
  ⟨s.decTimers.advance, step_of_unrecognized hr hw hd, rfl, decTimer_toNat s.dt, decTimer_toNat s.st,
    frame_decTimers_advance s⟩

end Sys2Proof.Machine
end

section
/-! PROOFS. Program flow: the jump and the immediate skips (R111, R113, R114). -/

namespace Sys2Proof.Machine

/-! ### Words of the flow instructions -/

theorem decodesTo_jp (nnn : Addr12) : DecodesTo (wordNnn 0x1 nnn) (.jp nnn) := by
  intro m
  rw [decode, fieldOp_wordNnn, fieldNnn_wordNnn]
  rfl

theorem decodesTo_seImm (x : Reg) (kk : Byte) : DecodesTo (wordXkk 0x3 x kk) (.seImm x kk) := by
  intro m
  rw [decode, fieldOp_wordXkk, fieldX_wordXkk, fieldKk_wordXkk]
  rfl

theorem decodesTo_sneImm (x : Reg) (kk : Byte) : DecodesTo (wordXkk 0x4 x kk) (.sneImm x kk) := by
  intro m
  rw [decode, fieldOp_wordXkk, fieldX_wordXkk, fieldKk_wordXkk]
  rfl

/-! ### The address a jump loads, and what a write of `PC` and a skip do -/

theorem zextAddr_toNat (nnn : Addr12) : (zextAddr nnn).toNat = nnn.toNat :=
  BitVec.toNat_setWidth_of_le (by decide)

theorem frame_setPc (s : State) (w : Word) : Frame s (s.setPc w) [.pc] := by
  intro p hp
  cases p with
  | pc => simp at hp
  | mem | v | stack => exact fun _ => rfl
  | fb => exact fun _ _ => rfl
  | idx | sp | dt | st | paused | pressed | pending | faulted | draws | params => exact rfl

theorem frame_skipIf (s : State) (taken : Bool) : Frame s (s.skipIf taken) [.pc] := by
  rw [State.skipIf_eq]
  exact frame_setPc s _

theorem skipIf_pc_toNat (s : State) (taken : Bool) :
    (s.skipIf taken).pc.toNat = if taken then (s.pc.toNat + 2) % 65536 else s.pc.toNat := by
  rw [State.skipIf_eq, State.setPc_pc]
  cases taken with
  | true => exact add_two_toNat s.pc
  | false => rfl

/-! ### The instructions -/

theorem exec_jp (nnn : Addr12) (s : State) : exec (.jp nnn) s = .next (s.setPc (zextAddr nnn)) := rfl

theorem exec_seImm (x : Reg) (kk : Byte) (s : State) :
    exec (.seImm x kk) s = .next (s.skipIf (decide (s.reg x = kk))) := rfl

theorem exec_sneImm (x : Reg) (kk : Byte) (s : State) :
    exec (.sneImm x kk) s = .next (s.skipIf (decide (s.reg x ≠ kk))) := rfl

/-- Settles O28: JP writes the zero-extended address to `PC`. -/
theorem jumpLoadsThePc : Obligations.JumpLoadsThePc := fun s nnn =>
  ⟨decodesTo_jp nnn, s.setPc (zextAddr nnn), exec_jp nnn s, zextAddr_toNat nnn, frame_setPc s _⟩

/-- Settles O32: both are a skip, SE on equal and SNE on different, so the two cases of one comparison give both values of
`PC`. -/
theorem immediateSkipsCompare : Obligations.ImmediateSkipsCompare := by
  refine fun s x kk => ⟨decodesTo_seImm x kk, decodesTo_sneImm x kk,
    ⟨_, exec_seImm x kk s, frame_skipIf s _, ?_⟩, ⟨_, exec_sneImm x kk s, frame_skipIf s _, ?_⟩⟩
  · rw [skipIf_pc_toNat]
    simp only [decide_eq_true_eq]
  · rw [skipIf_pc_toNat]
    simp only [decide_eq_true_eq, ite_not]

end Sys2Proof.Machine
end

section
/-! PROOFS. Register arithmetic and logic: the load, copy, sum and bitwise instructions (R130 to R135, R140). -/

namespace Sys2Proof.Machine

/-! ### Words of the register instructions -/

theorem decodesTo_ldImm (x : Reg) (kk : Byte) : DecodesTo (wordXkk 0x6 x kk) (.ldImm x kk) := by
  intro m
  rw [decode, fieldOp_wordXkk, fieldX_wordXkk, fieldKk_wordXkk]
  rfl

theorem decodesTo_addImm (x : Reg) (kk : Byte) : DecodesTo (wordXkk 0x7 x kk) (.addImm x kk) := by
  intro m
  rw [decode, fieldOp_wordXkk, fieldX_wordXkk, fieldKk_wordXkk]
  rfl

/-- A word of `op` 8, as the spec spells it, decodes to what its last nibble selects; the mode plays no part. -/
theorem decodesTo_aluWord {n : Nibble} {i : Reg → Reg → Instr} {x y : Reg}
    (h : ∀ w, fieldN w = n → decodeAlu w = .instr (i (fieldX w) (fieldY w))) :
    DecodesTo (((0x8 : Nibble).setWidth 16 <<< 12 ||| n.setWidth 16) ||| (x.setWidth 16 <<< 8) |||
      (y.setWidth 16 <<< 4)) (i x y) := by
  have hn := h (wordXyn 0x8 x y n) (fieldN_wordXyn 0x8 x y n)
  rw [fieldX_wordXyn, fieldY_wordXyn] at hn
  intro m
  rw [wordXyn_fixed_first, decode, fieldOp_wordXyn]
  exact hn

theorem decodesTo_ldReg (x y : Reg) :
    DecodesTo (0x8000 ||| (x.setWidth 16 <<< 8) ||| (y.setWidth 16 <<< 4)) (.ldReg x y) :=
  decodesTo_aluWord (n := 0) fun _ hn => by rw [decodeAlu, hn]; rfl

theorem decodesTo_orReg (x y : Reg) :
    DecodesTo (0x8001 ||| (x.setWidth 16 <<< 8) ||| (y.setWidth 16 <<< 4)) (.orReg x y) :=
  decodesTo_aluWord (n := 1) fun _ hn => by rw [decodeAlu, hn]; rfl

theorem decodesTo_andReg (x y : Reg) :
    DecodesTo (0x8002 ||| (x.setWidth 16 <<< 8) ||| (y.setWidth 16 <<< 4)) (.andReg x y) :=
  decodesTo_aluWord (n := 2) fun _ hn => by rw [decodeAlu, hn]; rfl

theorem decodesTo_xorReg (x y : Reg) :
    DecodesTo (0x8003 ||| (x.setWidth 16 <<< 8) ||| (y.setWidth 16 <<< 4)) (.xorReg x y) :=
  decodesTo_aluWord (n := 3) fun _ hn => by rw [decodeAlu, hn]; rfl

theorem decodesTo_addReg (x y : Reg) :
    DecodesTo (0x8004 ||| (x.setWidth 16 <<< 8) ||| (y.setWidth 16 <<< 4)) (.addReg x y) :=
  decodesTo_aluWord (n := 4) fun _ hn => by rw [decodeAlu, hn]; rfl

/-! ### What a write of one register, and of a result and then the flag, leaves -/

/-- An update of the register file alone keeps every other piece of state. -/
theorem frame_registerFile (s : State) (v : Vector Byte 16) : Frame s { s with v := v } [.v] := by
  intro p hp
  cases p with
  | v => simp at hp
  | mem | stack => exact fun _ => rfl
  | fb => exact fun _ _ => rfl
  | idx | pc | sp | dt | st | paused | pressed | pending | faulted | draws | params => exact rfl

theorem frame_setReg (s : State) (x : Reg) (b : Byte) : Frame s (s.setReg x b) [.v] := frame_registerFile s _

theorem regFrame_setReg (s : State) (x : Reg) (b : Byte) : RegFrame s (s.setReg x b) [x] := fun _ hr =>
  s.reg_setReg_ne b (List.ne_of_not_mem_cons hr)

theorem frame_resultThenFlag (s : State) (x : Reg) (result flag : Byte) :
    Frame s (s.resultThenFlag x result flag) [.v] := frame_registerFile s _

theorem regFrame_resultThenFlag (s : State) (x : Reg) (result flag : Byte) :
    RegFrame s (s.resultThenFlag x result flag) [x, VF] := by
  intro r hr
  have hx : r ≠ x := List.ne_of_not_mem_cons hr
  have hvf : r ≠ VF := List.ne_of_not_mem_cons (List.not_mem_of_not_mem_cons hr)
  rw [State.resultThenFlag, State.reg_setReg_ne _ _ hvf, State.reg_setReg_ne _ _ hx]

theorem State.reg_resultThenFlag_dest (s : State) {x : Reg} (result flag : Byte) (hx : x ≠ VF) :
    (s.resultThenFlag x result flag).reg x = result := by
  rw [State.resultThenFlag, State.reg_setReg_ne _ _ hx, State.reg_setReg_self]

/-- The flag is written last, so that it stays even with `VF` as the destination (R140). -/
theorem State.reg_resultThenFlag_vf (s : State) (x : Reg) (result flag : Byte) :
    (s.resultThenFlag x result flag).reg VF = flag := State.reg_setReg_self _ VF flag

theorem carryFlag_toNat (a b : Byte) : (carryFlag a b).toNat = if a.toNat + b.toNat > 255 then 1 else 0 :=
  apply_ite BitVec.toNat _ _ _

/-! ### The instructions -/

theorem exec_ldImm (x : Reg) (kk : Byte) (s : State) : exec (.ldImm x kk) s = .next (s.setReg x kk) := rfl

theorem exec_addImm (x : Reg) (kk : Byte) (s : State) :
    exec (.addImm x kk) s = .next (s.setReg x (s.reg x + kk)) := rfl

theorem exec_ldReg (x y : Reg) (s : State) : exec (.ldReg x y) s = .next (s.setReg x (s.reg y)) := rfl

theorem exec_orReg (x y : Reg) (s : State) : exec (.orReg x y) s = .next (s.setReg x (s.reg x ||| s.reg y)) := rfl

theorem exec_andReg (x y : Reg) (s : State) : exec (.andReg x y) s = .next (s.setReg x (s.reg x &&& s.reg y)) := rfl

theorem exec_xorReg (x y : Reg) (s : State) : exec (.xorReg x y) s = .next (s.setReg x (s.reg x ^^^ s.reg y)) := rfl

theorem exec_addReg (x y : Reg) (s : State) :
    exec (.addReg x y) s = .next (s.resultThenFlag x (s.reg x + s.reg y) (carryFlag (s.reg x) (s.reg y))) := rfl

/-- Settles O36: both values are of the old registers, and of the two writes the one of `VF` is last. -/
theorem addSetsTheCarry : Obligations.AddSetsTheCarry := by
  refine fun s x y => ⟨decodesTo_addReg x y, _, exec_addReg x y s, fun hx => ?_, ?_,
    regFrame_resultThenFlag s x _ _, frame_resultThenFlag s x _ _⟩
  · rw [State.reg_resultThenFlag_dest s _ _ hx, BitVec.toNat_add]
  · rw [State.reg_resultThenFlag_vf, carryFlag_toNat]

/-- Settles O34: each is one register write, so that `VF` changes only as the destination. -/
theorem immediateLoadAndAdd : Obligations.ImmediateLoadAndAdd := by
  refine fun s x kk => ⟨decodesTo_ldImm x kk, decodesTo_addImm x kk,
    ⟨_, exec_ldImm x kk s, s.reg_setReg_self x kk, regFrame_setReg s x _, frame_setReg s x _⟩,
    ⟨_, exec_addImm x kk s, ?_, regFrame_setReg s x _, frame_setReg s x _⟩⟩
  rw [State.reg_setReg_self, BitVec.toNat_add]

/-- Settles O35: each is one register write, and each bit of the written byte is the operation on the two old bits. -/
theorem registerCopyAndLogic : Obligations.RegisterCopyAndLogic := by
  refine fun s x y => ⟨decodesTo_ldReg x y, decodesTo_orReg x y,
    decodesTo_andReg x y, decodesTo_xorReg x y,
    ⟨_, exec_ldReg x y s, s.reg_setReg_self x _, regFrame_setReg s x _, frame_setReg s x _⟩,
    ⟨_, exec_orReg x y s, regFrame_setReg s x _, frame_setReg s x _, fun k => ?_⟩,
    ⟨_, exec_andReg x y s, regFrame_setReg s x _, frame_setReg s x _, fun k => ?_⟩,
    ⟨_, exec_xorReg x y s, regFrame_setReg s x _, frame_setReg s x _, fun k => ?_⟩⟩
  · rw [State.reg_setReg_self, BitVec.getLsbD_or]
  · rw [State.reg_setReg_self, BitVec.getLsbD_and]
  · rw [State.reg_setReg_self, BitVec.getLsbD_xor]

end Sys2Proof.Machine
end

section
/-! PROOFS. The index register: the four instructions that write `I` (R160 to R162, R164). -/

namespace Sys2Proof.Machine

/-! ### Words of the index instructions -/

theorem decodesTo_ldI (nnn : Addr12) : DecodesTo (wordNnn 0xA nnn) (.ldI nnn) := by
  intro m
  rw [decode, fieldOp_wordNnn, fieldNnn_wordNnn]
  rfl

theorem decodesTo_ldIV0 (nnn : Addr12) : DecodesTo (wordNnn 0xB nnn) (.ldIV0 nnn) := by
  intro m
  rw [decode, fieldOp_wordNnn, fieldNnn_wordNnn]
  rfl

/-- A word of `op` F, as the spec spells it, decodes to what its low byte selects; the mode plays no part. -/
theorem decodesTo_miscWord {kk : Byte} {i : Reg → Instr} {x : Reg}
    (h : ∀ w, fieldKk w = kk → decodeMisc w = .instr (i (fieldX w))) :
    DecodesTo (((0xF : Nibble).setWidth 16 <<< 12 ||| kk.setWidth 16) ||| (x.setWidth 16 <<< 8)) (i x) := by
  have hkk := h (wordXkk 0xF x kk) (fieldKk_wordXkk 0xF x kk)
  rw [fieldX_wordXkk] at hkk
  intro m
  rw [wordXkk_fixed_first, decode, fieldOp_wordXkk]
  exact hkk

theorem decodesTo_addI (x : Reg) : DecodesTo (0xF01E ||| (x.setWidth 16 <<< 8)) (.addI x) :=
  decodesTo_miscWord (kk := 0x1E) fun _ hkk => by rw [decodeMisc, hkk]; rfl

theorem decodesTo_ldF (x : Reg) : DecodesTo (0xF029 ||| (x.setWidth 16 <<< 8)) (.ldF x) :=
  decodesTo_miscWord (kk := 0x29) fun _ hkk => by rw [decodeMisc, hkk]; rfl

/-! ### What a write of `I` leaves, and the values written -/

theorem frame_setIdx (s : State) (w : Word) : Frame s (s.setIdx w) [.idx] := by
  intro p hp
  cases p with
  | idx => simp at hp
  | mem | v | stack => exact fun _ => rfl
  | fb => exact fun _ _ => rfl
  | pc | sp | dt | st | paused | pressed | pending | faulted | draws | params => exact rfl

theorem zextByte_toNat (b : Byte) : (zextByte b).toNat = b.toNat :=
  BitVec.toNat_setWidth_of_le (by decide)

/-- The product is at most 1275, so that 16 bits hold it and nothing is lost (R164). -/
theorem glyphAddr_toNat (b : Byte) : (glyphAddr b).toNat = b.toNat * 5 := by
  have hb : b.toNat < 256 := b.isLt
  rw [glyphAddr, BitVec.toNat_ofNat]
  omega

/-! ### The instructions -/

theorem exec_ldI (nnn : Addr12) (s : State) : exec (.ldI nnn) s = .next (s.setIdx (zextAddr nnn)) := rfl

theorem exec_ldIV0 (nnn : Addr12) (s : State) :
    exec (.ldIV0 nnn) s = .next (s.setIdx (zextAddr nnn + zextByte (s.reg 0))) := rfl

theorem exec_addI (x : Reg) (s : State) : exec (.addI x) s = .next (s.setIdx (s.idx + zextByte (s.reg x))) := rfl

theorem exec_ldF (x : Reg) (s : State) : exec (.ldF x) s = .next (s.setIdx (glyphAddr (s.reg x))) := rfl

/-- Settles O42: each is one write of `I`; the two sums wrap at 16 bits, and the glyph address does not reach that far. -/
theorem indexRegisterLoads : Obligations.IndexRegisterLoads := by
  refine fun s x nnn => ⟨decodesTo_ldI nnn, decodesTo_ldIV0 nnn, decodesTo_addI x, decodesTo_ldF x,
    ⟨_, exec_ldI nnn s, zextAddr_toNat nnn, frame_setIdx s _⟩,
    ⟨_, exec_ldIV0 nnn s, ?_, frame_setIdx s _⟩,
    ⟨_, exec_addI x s, ?_, frame_setIdx s _⟩,
    ⟨_, exec_ldF x s, glyphAddr_toNat (s.reg x), frame_setIdx s _⟩⟩
  · rw [State.setIdx_idx, BitVec.toNat_add, zextAddr_toNat, zextByte_toNat]
  · rw [State.setIdx_idx, BitVec.toNat_add, zextByte_toNat]

end Sys2Proof.Machine
end

section
/-! PROOFS. The Display: one drawn pixel, and the clear (R181 to R183, R185). -/

namespace Sys2Proof.Machine

/-! ### One drawn pixel -/

theorem drawPixel_mod (fb : Framebuffer) (c r : Nat) : drawPixel fb (c % 64) (r % 32) = drawPixel fb c r := by
  simp only [drawPixel, pixel_mod, Nat.mod_mod]

theorem pixel_drawPixel_self (fb : Framebuffer) (c r : Nat) : pixel (drawPixel fb c r).1 c r = !pixel fb c r := by
  rw [pixel_drawPixel, decide_eq_true rfl, decide_eq_true rfl, Bool.and_true, Bool.xor_true]

/-- On the display a place is its own remainder, so that the flipped pixel is the one at the remainders of `c` and `r`. -/
theorem pixel_drawPixel_onDisplay (fb : Framebuffer) (c r : Nat) {c' r' : Nat} (hc : c' < 64) (hr : r' < 32) :
    pixel (drawPixel fb c r).1 c' r' = if c' = c % 64 ∧ r' = r % 32 then !pixel fb c r else pixel fb c' r' := by
  split
  next here =>
    obtain ⟨rfl, rfl⟩ := here
    rw [← drawPixel_mod, pixel_drawPixel_self, pixel_mod]
  next elsewhere =>
    rw [pixel_drawPixel, Nat.mod_eq_of_lt hc, Nat.mod_eq_of_lt hr, ← Bool.decide_and, decide_eq_false elsewhere,
      Bool.xor_false]

theorem pixel_drawPixel_twice (fb : Framebuffer) (c r c' r' : Nat) :
    pixel (drawPixel (drawPixel fb c r).1 c r).1 c' r' = pixel fb c' r' := by
  rw [pixel_drawPixel, pixel_drawPixel, Bool.xor_assoc, Bool.xor_self, Bool.xor_false]

/-- Settles O50: a draw flips the pixel at the remainders of its coordinates, and so a second draw finds the opposite and
flips it back. -/
theorem drawPixelFlipsAndReportsCollision : Obligations.DrawPixelFlipsAndReportsCollision := fun fb c r =>
  ⟨drawPixel_mod fb c r, drawPixel_hit fb c r, fun _ _ => pixel_drawPixel_onDisplay fb c r,
    (drawPixel_hit _ c r).trans (pixel_drawPixel_self fb c r), pixel_drawPixel_twice fb c r⟩

/-! ### The words of CLS -/

/-- A word of `op` 0 is decoded by its `x` and its low byte. -/
theorem decode_sysWord (m : DecodeMode) (x : Reg) (kk : Byte) :
    decode m ((x.setWidth 16 <<< 8) ||| kk.setWidth 16) = decodeSys m (wordXkk 0 x kk) := by
  have hword : (x.setWidth 16 <<< 8) ||| kk.setWidth 16 = wordXkk 0 x kk :=
    congrArg (· ||| kk.setWidth 16) BitVec.zero_or.symm
  rw [hword, decode, fieldOp_wordXkk]
  rfl

theorem decodesTo_cls : DecodesTo 0x00E0 .cls
  | .strict => rfl
  | .keyed => rfl

theorem decode_keyed_cls (x : Reg) : decode .keyed ((x.setWidth 16 <<< 8) ||| 0x00E0) = .instr .cls := by
  refine (decode_sysWord .keyed x 0xE0).trans ?_
  rw [decodeSys, fieldKk_wordXkk]
  rfl

/-! ### The clear -/

theorem frame_setFb (s : State) (fb : Framebuffer) : Frame s (s.setFb fb) [.fb] := by
  intro p hp
  cases p with
  | fb => simp at hp
  | mem | v | stack => exact fun _ => rfl
  | idx | pc | sp | dt | st | paused | pressed | pending | faulted | draws | params => exact rfl

theorem exec_cls (s : State) : exec .cls s = .next (s.setFb clearDisplay) := rfl

/-- Settles O49: CLS writes the framebuffer alone, and what it writes is dark (`pixel_clear`). -/
theorem clearMakesEveryPixelDark : Obligations.ClearMakesEveryPixelDark := fun s x =>
  ⟨decodesTo_cls, decode_keyed_cls x, s.setFb clearDisplay, exec_cls s, pixel_clear, frame_setFb s _⟩

end Sys2Proof.Machine
end

section
/-! PROOFS. The Keyboard: the host's key-down and key-up (R204, R205). -/

namespace Sys2Proof.Machine

/-! ### The key code of a key event -/

/-- A key code is at most 15 (R201), so that 4 bits hold it. -/
theorem keyCode_toNat {k : Nat} (hk : k ≤ 15) : (BitVec.ofNat 4 k).toNat = k :=
  Nat.mod_eq_of_lt (Nat.lt_succ_of_le hk)

theorem keyWellFormed_of_le {k : Nat} (hk : k ≤ 15) : keyWellFormed k = true := decide_eq_true hk

theorem hostApply_onKeyDown {k : Nat} (hk : k ≤ 15) (s : State) :
    hostApply (.onKeyDown k) s = .next ((s.firePending (BitVec.ofNat 4 k)).addKey (BitVec.ofNat 4 k)) :=
  if_pos (keyWellFormed_of_le hk)

theorem hostApply_onKeyUp {k : Nat} (hk : k ≤ 15) (s : State) :
    hostApply (.onKeyUp k) s = .next (s.removeKey (BitVec.ofNat 4 k)) :=
  if_pos (keyWellFormed_of_le hk)

/-! ### A change of the key set alone -/

theorem frame_keySet (s : State) (keys : BitVec 16) : Frame s { s with pressed := keys } [.pressed] := by
  intro p hp
  cases p with
  | pressed => simp at hp
  | mem | v | stack => exact fun _ => rfl
  | fb => exact fun _ _ => rfl
  | idx | pc | sp | dt | st | paused | pending | faulted | draws | params => exact rfl

theorem frame_addKey (s : State) (k : Nibble) : Frame s (s.addKey k) [.pressed] := frame_keySet s _

theorem frame_removeKey (s : State) (k : Nibble) : Frame s (s.removeKey k) [.pressed] := frame_keySet s _

theorem isPressed_addKey_iff (s : State) (k : Nibble) (c : Byte) :
    (s.addKey k).isPressed c = true ↔ c.toNat = k.toNat ∨ s.isPressed c = true := by
  rw [State.isPressed_addKey, Bool.or_eq_true, decide_eq_true_iff]

theorem isPressed_removeKey_iff (s : State) (k : Nibble) (c : Byte) :
    (s.removeKey k).isPressed c = true ↔ c.toNat ≠ k.toNat ∧ s.isPressed c = true := by
  rw [State.isPressed_removeKey, Bool.and_eq_true, decide_eq_true_iff]

/-! ### The pending wait -/

theorem State.firePending_of_none {s : State} (h : s.pending = none) (k : Nibble) : s.firePending k = s := by
  rw [State.firePending, h]

theorem State.firePending_of_some {s : State} {x : Reg} (h : s.pending = some x) (k : Nibble) :
    s.firePending k = ((s.setReg x (k.setWidth 8)).setPaused false).clearPending := by
  rw [State.firePending, h]

@[simp] theorem State.isPressed_firePending (s : State) (k : Nibble) (c : Byte) :
    (s.firePending k).isPressed c = s.isPressed c := by
  cases h : s.pending with
  | none => rw [State.firePending_of_none h]
  | some x => rw [State.firePending_of_some h, State.isPressed_clearPending, State.isPressed_setPaused,
      State.isPressed_setReg]

/-- The register takes the key zero-extended (R204). -/
theorem State.reg_firePending_self {s : State} {x : Reg} (h : s.pending = some x) (k : Nibble) :
    ((s.firePending k).reg x).toNat = k.toNat := by
  rw [State.firePending_of_some h, State.reg_clearPending, State.reg_setPaused, State.reg_setReg_self]
  exact BitVec.toNat_setWidth_of_le (by decide)

theorem State.firePending_paused {s : State} {x : Reg} (h : s.pending = some x) (k : Nibble) :
    (s.firePending k).paused = false := by
  rw [State.firePending_of_some h, State.clearPending_paused, State.setPaused_paused]

/-- The wait fires once: after it no register is pending, whether one was before or not. -/
@[simp] theorem State.firePending_pending (s : State) (k : Nibble) : (s.firePending k).pending = none := by
  cases h : s.pending with
  | none => rw [State.firePending_of_none h, h]
  | some x => rw [State.firePending_of_some h, State.clearPending_pending]

theorem regFrame_firePending {s : State} {x : Reg} (h : s.pending = some x) (k : Nibble) :
    RegFrame s (s.firePending k) [x] := by
  rw [State.firePending_of_some h]
  exact regFrame_setReg s x _

theorem frame_firePending_addKey {s : State} {x : Reg} (h : s.pending = some x) (k : Nibble) :
    Frame s ((s.firePending k).addKey k) [.v, .paused, .pending, .pressed] := by
  rw [State.firePending_of_some h]
  intro p hp
  cases p with
  | v | paused | pending | pressed => simp at hp
  | mem | stack => exact fun _ => rfl
  | fb => exact fun _ _ => rfl
  | idx | pc | sp | dt | st | faulted | draws | params => exact rfl

/-! ### The two key events -/

/-- Settles O54: a key-down fires the wait, which does nothing when none is pending, and then adds the key, which touches
the key set alone; neither reads the old key set, so that a repeat fires too. -/
theorem keyDownFiresThePendingWait : Obligations.KeyDownFiresThePendingWait := by
  refine fun s k hk => ⟨_, hostApply_onKeyDown hk s, fun c => ?_, fun x hx => ?_, fun hnone => ?_⟩
  · rw [isPressed_addKey_iff, State.isPressed_firePending, keyCode_toNat hk]
  · exact ⟨(State.reg_firePending_self hx _).trans (keyCode_toNat hk), regFrame_firePending hx _,
      State.firePending_paused hx _, s.firePending_pending _, frame_firePending_addKey hx _⟩
  · rw [State.firePending_of_none hnone]
    exact frame_addKey s _

/-- Settles O55: a key-up writes the key set alone, and of it clears the one key. -/
theorem keyUpOnlyRemovesTheKey : Obligations.KeyUpOnlyRemovesTheKey := by
  refine fun s k hk => ⟨_, hostApply_onKeyUp hk s, fun c => ?_, frame_removeKey s _⟩
  rw [isPressed_removeKey_iff, keyCode_toNat hk]

end Sys2Proof.Machine
end

section
/-! PROOFS. Decoding and encoding: the round trips, the words on which the two modes disagree, and the words no row names
(R71, R75, R77, R78, R80). -/

namespace Sys2Proof

/-! ### Decoding an encoding -/

@[simp] theorem fixedZero_zero (m : DecodeMode) : fixedZero m 0 = true := by simp [fixedZero]

theorem fixedZero_keyed (digit : Nibble) : fixedZero .keyed digit = true := by simp [fixedZero]

/-- The decoder reads, of an encoding, just the fields it was assembled from. -/
theorem decode_encode (m : DecodeMode) (i : Instr) : decode m (encode i) = .instr i := by
  cases i <;> rw [encode]
  case cls | ret => cases m <;> rfl
  case jp | call | ldI | ldIV0 =>
    rw [decode, fieldOp_wordNnn, fieldNnn_wordNnn]
    rfl
  case seImm | sneImm | ldImm | addImm | rnd =>
    rw [decode, fieldOp_wordXkk, fieldX_wordXkk, fieldKk_wordXkk]
    rfl
  case seReg | sneReg =>
    rw [decode, fieldOp_wordXyn, fieldX_wordXyn, fieldY_wordXyn, fieldN_wordXyn, fixedZero_zero]
    rfl
  case ldReg | orReg | andReg | xorReg | addReg | subReg | shr | subn | shl =>
    rw [decode, fieldOp_wordXyn, decodeAlu, fieldX_wordXyn, fieldY_wordXyn, fieldN_wordXyn]
    rfl
  case drw =>
    rw [decode, fieldOp_wordXyn, fieldX_wordXyn, fieldY_wordXyn, fieldN_wordXyn]
    rfl
  case skp | sknp =>
    rw [decode, fieldOp_wordXkk, decodeKey, fieldX_wordXkk, fieldKk_wordXkk]
    rfl
  case ldVxDT | ldVxK | ldDTVx | ldSTVx | addI | ldF | ldB | stRegs | ldRegs =>
    rw [decode, fieldOp_wordXkk, decodeMisc, fieldX_wordXkk, fieldKk_wordXkk]
    rfl

/-- Settles O6: `decode_encode`, for an instruction that is well formed like every other. -/
theorem decodeOfEncodeIsTheInstruction : Obligations.DecodeOfEncodeIsTheInstruction := fun m i _ => decode_encode m i

theorem decodesTo_encode (i : Instr) : Machine.DecodesTo (encode i) i := fun m => decode_encode m i

/-- Settles O11: each word is the encoding of its instruction. -/
theorem sampleWordsDecodeAsTheMapSays : Obligations.SampleWordsDecodeAsTheMapSays :=
  ⟨decodesTo_encode .cls, decodesTo_encode .ret, decodesTo_encode (.jp 0x234), decodesTo_encode (.call 0x210),
    decodesTo_encode (.seImm 3 0x42), decodesTo_encode (.seReg 1 2), decodesTo_encode (.ldImm 0 0xFE),
    decodesTo_encode (.subReg 1 2), decodesTo_encode (.shl 0 5), decodesTo_encode (.ldIV0 0x300),
    decodesTo_encode (.rnd 3 0x0F), decodesTo_encode (.drw 1 2 5), decodesTo_encode (.sknp 5),
    decodesTo_encode (.ldVxK 5), decodesTo_encode (.ldRegs 2)⟩

/-! ### The one word of an instruction under strict decoding -/

theorem eq_wordNnn {w : Word} {op : Nibble} (hop : (fieldOp w).toNat = op.toNat) : w = wordNnn op (fieldNnn w) := by
  rw [← BitVec.eq_of_toNat_eq hop, wordNnn_fields]

theorem eq_wordXkk {w : Word} {op : Nibble} (hop : (fieldOp w).toNat = op.toNat) :
    w = wordXkk op (fieldX w) (fieldKk w) := by
  rw [← BitVec.eq_of_toNat_eq hop, wordXkk_fields]

theorem eq_wordXyn {w : Word} {op : Nibble} (hop : (fieldOp w).toNat = op.toNat) :
    w = wordXyn op (fieldX w) (fieldY w) (fieldN w) := by
  rw [← BitVec.eq_of_toNat_eq hop, wordXyn_fields]

theorem eq_encode_of_decodeSys {w : Word} {i : Instr} (hop : (fieldOp w).toNat = (0 : Nibble).toNat)
    (h : decodeSys .strict w = .instr i) : w = encode i := by
  unfold decodeSys at h
  split at h <;> cases h
  all_goals
    rename_i hzero hkk
    rw [eq_wordXkk hop, fixedZero_strict.mp hzero, (BitVec.toNat_eq_nat.mp hkk).2]
    rfl

theorem eq_encode_of_decodeAlu {w : Word} {i : Instr} (hop : (fieldOp w).toNat = (8 : Nibble).toNat)
    (h : decodeAlu w = .instr i) : w = encode i := by
  unfold decodeAlu at h
  split at h <;> cases h
  all_goals
    rename_i hn
    exact (eq_wordXyn hop).trans (congrArg (wordXyn 8 _ _) (BitVec.eq_of_toNat_eq hn))

theorem eq_encode_of_decodeKey {w : Word} {i : Instr} (hop : (fieldOp w).toNat = (0xE : Nibble).toNat)
    (h : decodeKey w = .instr i) : w = encode i := by
  unfold decodeKey at h
  split at h <;> cases h
  all_goals
    rename_i hkk
    exact (eq_wordXkk hop).trans (congrArg (wordXkk 0xE _) (BitVec.eq_of_toNat_eq hkk))

theorem eq_encode_of_decodeMisc {w : Word} {i : Instr} (hop : (fieldOp w).toNat = (0xF : Nibble).toNat)
    (h : decodeMisc w = .instr i) : w = encode i := by
  unfold decodeMisc at h
  split at h <;> cases h
  all_goals
    rename_i hkk
    exact (eq_wordXkk hop).trans (congrArg (wordXkk 0xF _) (BitVec.eq_of_toNat_eq hkk))

/-- Strict decoding reads every digit of the word: what is no operand has to be the row's fixed digit. -/
theorem eq_encode_of_decode {w : Word} {i : Instr} (h : decode .strict w = .instr i) : w = encode i := by
  unfold decode at h
  split at h <;> rename_i hop
  case h_1 => exact eq_encode_of_decodeSys hop h
  case h_9 => exact eq_encode_of_decodeAlu hop h
  case h_15 => exact eq_encode_of_decodeKey hop h
  case h_16 => exact eq_encode_of_decodeMisc hop h
  case h_6 | h_10 =>
    split at h <;> cases h
    rename_i hzero
    exact (eq_wordXyn hop).trans (congrArg (wordXyn _ _ _) (fixedZero_strict.mp hzero))
  case h_2 | h_3 | h_11 | h_12 => cases h; exact eq_wordNnn hop
  case h_4 | h_5 | h_7 | h_8 | h_13 => cases h; exact eq_wordXkk hop
  case h_14 => cases h; exact eq_wordXyn hop
  case h_17 => cases h

/-- Settles O7: one direction is `eq_encode_of_decode`, the other the round trip `decode_encode`. -/
theorem strictDecodingLosesNoBit : Obligations.StrictDecodingLosesNoBit := fun _ i =>
  ⟨eq_encode_of_decode, fun h => h ▸ decode_encode .strict i⟩

/-! ### The words of `op` 0, 5 and 9, where the two modes can differ -/

theorem decode_of_op0 (m : DecodeMode) {w : Word} (hop : fieldOp w = 0) :
    decode m w = if fixedZero m (fieldX w) = true ∧ fieldKk w = 0xE0 then .instr .cls
      else if fixedZero m (fieldX w) = true ∧ fieldKk w = 0xEE then .instr .ret else .unrecognized w := by
  rw [decode, hop]
  show decodeSys m w = _
  unfold decodeSys
  split <;> rename_i hx hkk
  · rw [if_pos ⟨hx, BitVec.eq_of_toNat_eq hkk⟩]
  · have he : fieldKk w = 0xEE := BitVec.eq_of_toNat_eq hkk
    simp [hx, he]
  · rw [if_neg fun h => hx h.1 (congrArg BitVec.toNat h.2), if_neg fun h => hkk h.1 (congrArg BitVec.toNat h.2)]

theorem decode_of_op5 (m : DecodeMode) {w : Word} (hop : fieldOp w = 5) :
    decode m w = if fixedZero m (fieldN w) then .instr (.seReg (fieldX w) (fieldY w)) else .unrecognized w := by
  rw [decode, hop]
  rfl

theorem decode_of_op9 (m : DecodeMode) {w : Word} (hop : fieldOp w = 9) :
    decode m w = if fixedZero m (fieldN w) then .instr (.sneReg (fieldX w) (fieldY w)) else .unrecognized w := by
  rw [decode, hop]
  rfl

theorem decode_mode_irrelevant {w : Word} (h0 : fieldOp w ≠ 0) (h5 : fieldOp w ≠ 5) (h9 : fieldOp w ≠ 9)
    (m m' : DecodeMode) : decode m w = decode m' w := by
  unfold decode
  split <;> rename_i hop
  case h_1 => exact absurd (BitVec.eq_of_toNat_eq hop) h0
  case h_6 => exact absurd (BitVec.eq_of_toNat_eq hop) h5
  case h_10 => exact absurd (BitVec.eq_of_toNat_eq hop) h9
  all_goals rfl

/-- Settles O9: outside `op` 0, 5 and 9 no digit is fixed by the mode, and on these three the two decodings differ just
where a digit written as 0 is not. -/
theorem decodeModesDisagreeOnlyOnFixedDigits : Obligations.DecodeModesDisagreeOnlyOnFixedDigits := by
  intro w
  by_cases h0 : fieldOp w = 0
  · have hs := decode_of_op0 .strict h0
    have hk := decode_of_op0 .keyed h0
    simp only [fixedZero_keyed, fixedZero_strict, true_and] at hs hk
    by_cases he0 : fieldKk w = 0xE0
    · by_cases hx : fieldX w = 0 <;> simp_all
    by_cases hee : fieldKk w = 0xEE
    · by_cases hx : fieldX w = 0 <;> simp_all
    · simp_all
  by_cases h5 : fieldOp w = 5
  · have hs := decode_of_op5 .strict h5
    have hk := decode_of_op5 .keyed h5
    simp only [fixedZero_keyed, fixedZero_strict, if_true] at hs hk
    by_cases hn : fieldN w = 0 <;> simp [hs, hk, h5, hn]
  by_cases h9 : fieldOp w = 9
  · have hs := decode_of_op9 .strict h9
    have hk := decode_of_op9 .keyed h9
    simp only [fixedZero_keyed, fixedZero_strict, if_true] at hs hk
    by_cases hn : fieldN w = 0 <;> simp [hs, hk, h9, hn]
  · have hsame := decode_mode_irrelevant h0 h5 h9 .strict .keyed
    simp_all

/-! ### The unrecognized words under strict decoding -/

theorem decodeAlu_unrecognized_iff (w : Word) :
    decodeAlu w = .unrecognized w ↔ fieldN w ∈ [8, 9, 0xA, 0xB, 0xC, 0xD, 0xF] := by
  unfold decodeAlu
  split
  case h_10 =>
    have hlt := (fieldN w).isLt
    simp only [imp_false] at *
    simp [BitVec.toNat_eq]
    omega
  all_goals
    rename_i hn
    simp [BitVec.toNat_eq, hn]

theorem decodeKey_unrecognized_iff (w : Word) : decodeKey w = .unrecognized w ↔ fieldKk w ∉ [0x9E, 0xA1] := by
  unfold decodeKey
  split
  case h_3 => simp_all [BitVec.toNat_eq]
  all_goals
    rename_i hkk
    simp [BitVec.toNat_eq, hkk]

theorem decodeMisc_unrecognized_iff (w : Word) :
    decodeMisc w = .unrecognized w ↔ fieldKk w ∉ [0x07, 0x0A, 0x15, 0x18, 0x1E, 0x29, 0x33, 0x55, 0x65] := by
  unfold decodeMisc
  split
  case h_10 => simp_all [BitVec.toNat_eq]
  all_goals
    rename_i hkk
    simp [BitVec.toNat_eq, hkk]

theorem decode_op0_unrecognized_iff {w : Word} (hop : fieldOp w = 0) :
    decode .strict w = .unrecognized w ↔ w ≠ 0x00E0 ∧ w ≠ 0x00EE := by
  constructor
  · intro h
    constructor <;> rintro rfl <;> cases h
  · rintro ⟨h1, h2⟩
    rw [decode_of_op0 .strict hop, if_neg, if_neg]
    · rintro ⟨hx, hkk⟩
      exact h2 (by rw [eq_wordXkk (congrArg BitVec.toNat hop), fixedZero_strict.mp hx, hkk]; rfl)
    · rintro ⟨hx, hkk⟩
      exact h1 (by rw [eq_wordXkk (congrArg BitVec.toNat hop), fixedZero_strict.mp hx, hkk]; rfl)

/-- Settles O10: the split of the decoder by `op`, with one lemma for each `op` that has a second selector. -/
theorem unrecognizedWordsAreTheListedOnes : Obligations.UnrecognizedWordsAreTheListedOnes := by
  intro w
  by_cases h0 : fieldOp w = 0
  · rw [decode_op0_unrecognized_iff h0]
    simp [h0]
  unfold decode
  split <;> rename_i hop
  case h_1 => exact absurd (BitVec.eq_of_toNat_eq hop) h0
  case h_9 =>
    have : fieldOp w = 8 := BitVec.eq_of_toNat_eq hop
    rw [decodeAlu_unrecognized_iff]
    simp [this]
  case h_15 =>
    have : fieldOp w = 0xE := BitVec.eq_of_toNat_eq hop
    rw [decodeKey_unrecognized_iff]
    simp [this]
  case h_16 =>
    have : fieldOp w = 0xF := BitVec.eq_of_toNat_eq hop
    rw [decodeMisc_unrecognized_iff]
    simp [this]
  case h_6 | h_10 => simp [BitVec.toNat_eq, hop, fixedZero]
  case h_17 =>
    have hlt := (fieldOp w).isLt
    simp only [imp_false] at *
    omega
  all_goals simp [BitVec.toNat_eq, hop]

end Sys2Proof
end

section
/-! PROOFS. What an instruction can change: its footprint, proved of every execution once, and the rules that follow from it
(R23, R25, R26, R100, R117, R163). -/

namespace Sys2Proof.Machine

/-! ### Frames -/

/-- A frame, piece by piece: the form in which `simp` proves the frame of an update. -/
theorem frame_iff {s t : State} {l : List Part} :
    Frame s t l ↔
      (.mem ∉ l → ∀ a, t.byteAt a = s.byteAt a) ∧ (.v ∉ l → ∀ r, t.reg r = s.reg r) ∧ (.idx ∉ l → t.idx = s.idx) ∧
      (.pc ∉ l → t.pc = s.pc) ∧ (.sp ∉ l → t.sp = s.sp) ∧ (.stack ∉ l → ∀ j, t.slot j = s.slot j) ∧
      (.dt ∉ l → t.dt = s.dt) ∧ (.st ∉ l → t.st = s.st) ∧ (.paused ∉ l → t.paused = s.paused) ∧
      (.fb ∉ l → ∀ c r, pixel t.fb c r = pixel s.fb c r) ∧ (.pressed ∉ l → t.pressed = s.pressed) ∧
      (.pending ∉ l → t.pending = s.pending) ∧ (.faulted ∉ l → t.faulted = s.faulted) ∧
      (.draws ∉ l → t.draws = s.draws) ∧ (.params ∉ l → t.params = s.params) := by
  constructor
  · intro h
    exact ⟨h .mem, h .v, h .idx, h .pc, h .sp, h .stack, h .dt, h .st, h .paused, h .fb, h .pressed, h .pending,
      h .faulted, h .draws, h .params⟩
  · rintro ⟨mem, v, idx, pc, sp, stack, dt, st, paused, fb, pressed, pending, faulted, draws, params⟩ p
    cases p <;> assumption

theorem Same.trans {s t u : State} {p : Part} (h : Same s t p) (h' : Same t u p) : Same s u p := by
  cases p with
  | mem | v | stack => exact fun a => (h' a).trans (h a)
  | fb => exact fun c r => (h' c r).trans (h c r)
  | idx | pc | sp | dt | st | paused | pressed | pending | faulted | draws | params => exact Eq.trans h' h

theorem Frame.trans {s t u : State} {l : List Part} (h : Frame s t l) (h' : Frame t u l) : Frame s u l :=
  fun p hp => (h p hp).trans (h' p hp)

theorem Frame.mono {s t : State} {l l' : List Part} (h : Frame s t l) (hl : l ⊆ l') : Frame s t l' :=
  fun p hp => h p fun hm => hp (hl hm)

/-- A piece that turns out to be the same leaves the list of those that may differ. -/
theorem Frame.erase {s t : State} {l l' : List Part} (h : Frame s t l) (p : Part) (hp : Same s t p)
    (hl : l ⊆ p :: l') : Frame s t l' := by
  intro q hq
  by_cases he : q = p
  · exact he ▸ hp
  · refine h q fun hm => ?_
    rcases List.mem_cons.1 (hl hm) with h | h
    · exact he h
    · exact hq h

theorem Frame.refl (s : State) (l : List Part) : Frame s s l := by simp [frame_iff]

theorem frame_setDt (s : State) (b : Byte) : Frame s (s.setDt b) [.dt] := by simp [frame_iff]

theorem frame_setSt (s : State) (b : Byte) : Frame s (s.setSt b) [.st] := by simp [frame_iff]

theorem frame_decTimers (s : State) : Frame s s.decTimers [.dt, .st] := by simp [frame_iff]

theorem frame_markFault (s : State) (f : ModelFault) : Frame s (s.markFault f) [.faulted] := by simp [frame_iff]

theorem frame_setByte (s : State) (a : Nat) (b : Byte) : Frame s (s.setByte a b) [.mem] := by simp [frame_iff]

theorem frame_wait (s : State) (x : Reg) : Frame s ((s.setPaused true).setOnKeyPress x) [.paused, .pending] := by
  simp [frame_iff]

theorem frame_draw (s : State) (x : Reg) (b : Byte) : Frame s (s.countDraw.setReg x b) [.v, .draws] := by
  have h : Frame s s.countDraw [.v, .draws] := by simp [frame_iff]
  exact h.trans ((frame_setReg _ x b).mono (by decide))

theorem frame_flagThenResult (s : State) (flag : Byte) (x : Reg) (result : State → Byte) :
    Frame s (s.flagThenResult flag x result) [.v] := frame_registerFile s _

theorem frame_drawRows (px py left row : Nat) (hit : Bool) (s : State) :
    Frame s (drawRows px py left row hit s) [.fb, .v, .faulted] := by
  obtain ⟨g, v, f, h⟩ := drawRows_shape px py left row hit s
  rw [h]
  simp [frame_iff, State.byteAt, State.slot]

/-! ### CALL and RET -/

theorem exec_ret_cases (s : State) :
    (∃ j, j.val = s.sp.toNat % 16 ∧ (s.params.stack = .mod16 ∨ s.sp.toNat < 16) ∧
      exec .ret s = .next ((s.setPc (s.slot j)).setSp (s.sp - 1))) ∨
    (s.params.stack = .fault ∧ 16 ≤ s.sp.toNat ∧ exec .ret s = .next (s.markFault (.stackOutOfRange s.sp))) := by
  simp only [exec, execRet]
  rcases slotOf_cases s.params.stack s.sp with ⟨j, h, hj, hp⟩ | ⟨hp, hsp, h⟩
  · exact .inl ⟨j, hj, hp, by rw [h]⟩
  · exact .inr ⟨hp, hsp, by rw [h]⟩

theorem exec_call_cases (nnn : Addr12) (s : State) :
    (∃ j, j.val = (s.sp + 1).toNat % 16 ∧ (s.params.stack = .mod16 ∨ (s.sp + 1).toNat < 16) ∧
      exec (.call nnn) s = .next (((s.setSp (s.sp + 1)).setSlot j s.pc).setPc (zextAddr nnn))) ∨
    (s.params.stack = .fault ∧ 16 ≤ (s.sp + 1).toNat ∧
      exec (.call nnn) s = .next ((s.setSp (s.sp + 1)).markFault (.stackOutOfRange (s.sp + 1)))) := by
  simp only [exec, execCall, State.setSp_params, State.setSp_sp, State.setSp_pc]
  rcases slotOf_cases s.params.stack (s.sp + 1) with ⟨j, h, hj, hp⟩ | ⟨hp, hsp, h⟩
  · exact .inl ⟨j, hj, hp, by rw [h]⟩
  · exact .inr ⟨hp, hsp, by rw [h]⟩

theorem frame_ret (s : State) (w : Word) (b : Byte) : Frame s ((s.setPc w).setSp b) [.sp, .pc] := by simp [frame_iff]

theorem frame_call (s : State) (b : Byte) (j : Fin 16) (w w' : Word) :
    Frame s (((s.setSp b).setSlot j w).setPc w') [.sp, .stack, .pc] := by simp [frame_iff]

theorem frame_callFault (s : State) (b : Byte) (f : ModelFault) : Frame s ((s.setSp b).markFault f) [.sp, .faulted] := by
  simp [frame_iff]

/-! ### The footprint of an instruction -/

/-- The pieces of state an execution of the instruction may change. -/
def footprint : Instr → List Part
  | .cls => [.fb]
  | .ret => [.sp, .pc, .faulted]
  | .call _ => [.sp, .stack, .pc, .faulted]
  | .jp _ | .seImm _ _ | .sneImm _ _ | .seReg _ _ | .sneReg _ _ | .skp _ | .sknp _ => [.pc]
  | .ldImm _ _ | .addImm _ _ | .ldReg _ _ | .orReg _ _ | .andReg _ _ | .xorReg _ _ | .addReg _ _ | .subReg _ _ | .shr _ _
  | .subn _ _ | .shl _ _ | .ldVxDT _ => [.v]
  | .ldI _ | .ldIV0 _ | .addI _ | .ldF _ => [.idx]
  | .rnd _ _ => [.v, .draws]
  | .drw _ _ _ => [.fb, .v, .faulted]
  | .ldVxK _ => [.paused, .pending]
  | .ldDTVx _ => [.dt]
  | .ldSTVx _ => [.st]
  | .ldB _ | .stRegs _ => [.mem, .faulted]
  | .ldRegs _ => [.v, .faulted]

theorem eq_of_unrefused {refused : Bool} {t u : State}
    (h : (if refused then .refused .vfOperand else .next u : Host.Outcome State Fault Refusal) = .next t) : u = t := by
  cases refused with
  | true => cases h
  | false => cases h; rfl

theorem exec_frame {i : Instr} {s t : State} (h : exec i s = .next t) : Frame s t (footprint i) := by
  cases i
  case ret =>
    rcases exec_ret_cases s with ⟨j, -, -, he⟩ | ⟨-, -, he⟩ <;> cases he.symm.trans h
    · exact (frame_ret s _ _).mono (by decide)
    · exact (frame_markFault s _).mono (by decide)
  case call nnn =>
    rcases exec_call_cases nnn s with ⟨j, -, -, he⟩ | ⟨-, -, he⟩ <;> cases he.symm.trans h
    · exact (frame_call s _ _ _ _).mono (by simp [footprint])
    · exact (frame_callFault s _ _).mono (by simp [footprint])
  case subReg | shr | subn | shl =>
    rw [← eq_of_unrefused h]
    exact frame_flagThenResult s _ _ _
  all_goals cases h
  case cls => exact frame_setFb s _
  case jp => exact frame_setPc s _
  case seImm | sneImm | seReg | sneReg | skp | sknp => exact frame_skipIf s _
  case ldImm | addImm | ldReg | orReg | andReg | xorReg | ldVxDT => exact frame_setReg s _ _
  case addReg => exact frame_resultThenFlag s _ _ _
  case ldI | ldIV0 | addI | ldF => exact frame_setIdx s _
  case rnd => exact frame_draw s _ _
  case drw => exact frame_drawRows _ _ _ _ _ s
  case ldVxK => exact frame_wait s _
  case ldDTVx => exact frame_setDt s _
  case ldSTVx => exact frame_setSt s _
  case ldB | stRegs => exact storeBytes_frame _ _ s
  case ldRegs => exact loadBytes_frame _ _ s

/-- Settles O19: `I` is in the footprint of the four only. -/
theorem onlyFourInstructionsWriteTheIndex : Obligations.OnlyFourInstructionsWriteTheIndex := by
  intro i s t h hne
  have hmem : .idx ∈ footprint i := by_contra fun hm => hne (exec_frame h .idx hm)
  cases i <;> simp [footprint] at hmem ⊢

/-- Settles O20: `SP` is in the footprint of CALL and RET only, and the slots in that of CALL. -/
theorem onlyCallAndReturnUseTheStack : Obligations.OnlyCallAndReturnUseTheStack := by
  refine fun i s t h => ⟨fun hne => ?_, fun ⟨j, hne⟩ => ?_⟩
  · have hmem : .sp ∈ footprint i := by_contra fun hm => hne (exec_frame h .sp hm)
    cases i <;> simp [footprint] at hmem ⊢
  · have hmem : .stack ∈ footprint i := by_contra fun hm => hne (exec_frame h .stack hm j)
    cases i <;> simp [footprint] at hmem ⊢

theorem skipIf_pc (s : State) (taken : Bool) : (s.skipIf taken).pc = s.pc ∨ (s.skipIf taken).pc = s.pc + 2 := by
  cases taken with
  | true => exact .inr rfl
  | false => exact .inl rfl

/-- Settles O18: an instruction without `PC` in its footprint leaves it, and the others write what their own equations say. -/
theorem onlySkipsJumpsCallsReturnsMoveThePc : Obligations.OnlySkipsJumpsCallsReturnsMoveThePc := by
  intro i s t h
  cases i
  case seImm | sneImm | seReg | sneReg | skp | sknp => cases h; exact skipIf_pc s _
  case jp => cases h; rfl
  case call nnn =>
    rcases exec_call_cases nnn s with ⟨j, -, -, he⟩ | ⟨hp, -, he⟩ <;> cases he.symm.trans h
    · exact .inl rfl
    · exact .inr ⟨hp, rfl⟩
  case ret =>
    rcases exec_ret_cases s with ⟨j, -, -, he⟩ | ⟨hp, -, he⟩ <;> cases he.symm.trans h
    · exact .inl ⟨j, rfl⟩
    · exact .inr ⟨hp, rfl⟩
  all_goals exact exec_frame h .pc (by simp [footprint])

end Sys2Proof.Machine
end

section
/-! PROOFS. What a step can do, and that it always ends: the ways of a step, the fault mark, the refusal of `VF` as an
operand (R39, R54, R97, R100, R145, R230). -/

namespace Sys2Proof.Machine

/-! ### The timers around an execution -/

theorem State.timersBefore_of_afterExecute {s : State} (h : s.params.timers = .afterExecute) : s.timersBefore = s := by
  rw [State.timersBefore_eq, if_pos h]

theorem State.timersBefore_of_beforeFetch {s : State} (h : s.params.timers = .beforeFetch) :
    s.timersBefore = s.decTimers := by
  rw [State.timersBefore_eq, if_neg (by rw [h]; decide)]

theorem State.timersAfter_of_afterExecute {s : State} (h : s.params.timers = .afterExecute) (hf : s.faulted = none) :
    s.timersAfter = s.decTimers := by
  rw [State.timersAfter_eq, if_pos ⟨h, hf⟩]

theorem State.timersAfter_of_beforeFetch {s : State} (h : s.params.timers = .beforeFetch) : s.timersAfter = s := by
  rw [State.timersAfter_eq, if_neg (by rw [h]; simp)]

theorem State.timersAfter_of_faulted {s : State} {f : ModelFault} (hf : s.faulted = some f) : s.timersAfter = s := by
  rw [State.timersAfter_eq, if_neg (by rw [hf]; simp)]

theorem frame_timersBefore (s : State) : Frame s s.timersBefore [.dt, .st] := by
  rw [State.timersBefore_eq]
  split
  · exact Frame.refl s _
  · exact frame_decTimers s

theorem frame_timersAfter (s : State) : Frame s s.timersAfter [.dt, .st] := by
  rw [State.timersAfter_eq]
  split
  · exact frame_decTimers s
  · exact Frame.refl s _

theorem frame_timersBefore_advance (s : State) : Frame s s.timersBefore.advance [.pc, .dt, .st] :=
  ((frame_timersBefore s).mono (by decide)).trans ((frame_setPc _ _).mono (by decide))

@[simp] theorem State.timersBefore_advance_params (s : State) : s.timersBefore.advance.params = s.params := by
  rw [State.advance_params, State.timersBefore_params]

@[simp] theorem State.timersBefore_pc (s : State) : s.timersBefore.pc = s.pc :=
  frame_timersBefore s .pc (by decide)

/-! ### The step by its word -/

theorem step_of_refused {s : State} {w : Word} {i : Instr} (hr : s.Running) (hw : s.Fetches w)
    (hd : decode s.params.decode w = .instr i) (he : exec i s.timersBefore.advance = .refused .vfOperand) :
    step s = .next (s.markFault (.vfOperand w)) := by
  rw [step_of_fetches hr hw, runWord, State.timersBefore_advance_params, hd]
  simp only [he]

theorem exec_params {i : Instr} {s t : State} (h : exec i s = .next t) : t.params = s.params :=
  exec_frame h .params (by cases i <;> simp [footprint])

/-- Settles O12: the first three clauses are `step_of_aboutToRun` in the two timer orders, the last is the refusal. -/
theorem stepRunsTheDecodedInstruction : Obligations.StepRunsTheDecodedInstruction := by
  intro s w i hr hw hd
  have hrun : s.AboutToRun i := ⟨hr, w, hw, hd⟩
  refine ⟨fun t ho he hf => ?_, fun t f ho he hf => ?_, fun t ho he => ?_, fun he => ?_⟩
  · rw [step_of_aboutToRun hrun (by rwa [State.timersBefore_of_afterExecute ho]),
      State.timersAfter_of_afterExecute (by rw [exec_params he]; exact ho) hf]
  · rw [step_of_aboutToRun hrun (by rwa [State.timersBefore_of_afterExecute ho]), State.timersAfter_of_faulted hf]
  · rw [step_of_aboutToRun hrun (by rwa [State.timersBefore_of_beforeFetch ho]),
      State.timersAfter_of_beforeFetch (by rw [exec_params he]; exact ho)]
  · exact step_of_refused hr hw hd (by rwa [State.advance, State.timersBefore_pc])

/-! ### The ways of a step -/

/-- The next states of a step, by the way it takes (R97). -/
inductive StepWay (s : State) : State → Prop
  /-- nothing happens while paused (R91) -/
  | paused (hp : s.paused = true) : StepWay s s
  /-- the fetch is out of range, which leaves the decrement of before_fetch alone (R54) -/
  | fetchFault (hp : s.paused = false) (hoob : s.params.oob = .fault) (hpc : 0xFFF ≤ s.pc.toNat) :
      StepWay s (s.timersBefore.markFault (.outOfRange (max s.pc.toNat 0x1000)))
  /-- the word is no instruction (R98) -/
  | unrecognized {w u : Word} (hr : s.Running) (hw : s.Fetches w) (hd : decode s.params.decode w = .unrecognized u) :
      StepWay s s.decTimers.advance
  /-- the instruction executes, to its end or to a fault of its own (R95) -/
  | executed {w : Word} {i : Instr} {t : State} (hr : s.Running) (hw : s.Fetches w)
      (hd : decode s.params.decode w = .instr i) (he : exec i s.timersBefore.advance = .next t) :
      StepWay s t.timersAfter
  /-- `VF` as an operand is refused (R145) -/
  | refused {w : Word} {i : Instr} (hr : s.Running) (hw : s.Fetches w) (hd : decode s.params.decode w = .instr i)
      (hv : s.params.vfAlias = .refuse) (hu : UsesVfAsOperand i) : StepWay s (s.markFault (.vfOperand w))

/-- A step of an unfaulted state answers a next state. -/
theorem step_answers {s : State} (hf : s.faulted = none) : ∃ t, step s = .next t ∧ StepWay s t := by
  rcases step_cases s hf with ⟨hp, h⟩ | ⟨hp, hoob, hpc, h⟩ | ⟨hr, w, hw, h⟩
  · exact ⟨_, h, .paused hp⟩
  · exact ⟨_, h, .fetchFault hp hoob hpc⟩
  rcases runWord_cases w s s.timersBefore.advance with ⟨u, hd, -⟩ | ⟨i, t, hd, he, -, hrun⟩ | ⟨i, hd, -, hv, hu, hrun⟩ <;>
    rw [State.timersBefore_advance_params] at *
  · exact ⟨_, step_of_unrecognized hr hw hd, .unrecognized hr hw hd⟩
  · exact ⟨_, h.trans hrun, .executed hr hw hd he⟩
  · exact ⟨_, h.trans hrun, .refused hr hw hd hv hu⟩

theorem faulted_of_step {s t : State} (h : step s = .next t) : s.faulted = none := by
  cases hf : s.faulted with
  | none => rfl
  | some f =>
    rw [step_of_faulted hf] at h
    cases h

theorem stepWay_of_step {s t : State} (h : step s = .next t) : StepWay s t := by
  obtain ⟨t', ht', hway⟩ := step_answers (faulted_of_step h)
  cases ht'.symm.trans h
  exact hway

/-- A piece of state that neither the advance nor a timer nor the mark is, and no instruction run has in its footprint,
stays. -/
theorem StepWay.same {s t : State} (h : StepWay s t) {p : Part} (hp : p ∉ [.pc, .dt, .st, .faulted])
    (hi : ∀ i, p ∉ footprint i) : Same s t p := by
  simp only [List.mem_cons, List.not_mem_nil, or_false, not_or] at hp
  obtain ⟨hpc, hdt, hst, hf⟩ := hp
  cases h with
  | paused => exact Frame.refl s [] p (by simp)
  | fetchFault =>
    exact (frame_timersBefore s p (by simp [hdt, hst])).trans (frame_markFault _ _ p (by simp [hf]))
  | unrecognized => exact frame_decTimers_advance s p (by simp [hpc, hdt, hst])
  | executed hr hw hd he =>
    exact ((frame_timersBefore_advance s p (by simp [hpc, hdt, hst])).trans (exec_frame he p (hi _))).trans
      (frame_timersAfter _ p (by simp [hdt, hst]))
  | refused => exact frame_markFault s _ p (by simp [hf])

theorem params_of_step {s t : State} (h : step s = .next t) : t.params = s.params :=
  (stepWay_of_step h).same (p := .params) (by decide) fun i => by cases i <;> simp [footprint]

theorem pressed_of_step {s t : State} (h : step s = .next t) : t.pressed = s.pressed :=
  (stepWay_of_step h).same (p := .pressed) (by decide) fun i => by cases i <;> simp [footprint]

/-! ### The fetch fault -/

/-- Settles O15: a fetch that reaches 0x1000 reads no word, so the step takes the way of the fetch fault. -/
theorem fetchFaultLeavesTheProgramCounter : Obligations.FetchFaultLeavesTheProgramCounter := by
  intro s hr hoob hpc
  refine ⟨s.timersBefore.markFault (.outOfRange (max s.pc.toNat 0x1000)), ?_, rfl, fun ho => ?_, fun ho => ?_⟩
  · rcases step_cases s hr.1 with ⟨hp, -⟩ | ⟨-, -, -, h⟩ | ⟨-, w, ⟨hi, lo, hfetch, -⟩, -⟩
    · cases hp.symm.trans hr.2
    · exact h
    · rcases s.fetch_cases with ⟨e, e', -, he', -⟩ | ⟨-, -, h⟩
      · rw [hoob, eff_fault_of_ge (by omega)] at he'
        cases he'
      · cases h.symm.trans hfetch
  · rw [State.timersBefore_of_afterExecute ho]
    exact frame_markFault s _
  · rw [State.timersBefore_of_beforeFetch ho]
    exact frame_markFault _ _

/-! ### The parameters under which nothing faults -/

theorem inReach_of_ne_fault {p : OobPolicy} (h : p ≠ .fault) (base len : Nat) : InReach p base len :=
  fun hp => absurd hp h

theorem State.memRead_of_inReach {s : State} {base len k : Nat} (h : InReach s.params.oob base len) (hk : k < len) :
    ∃ b, s.memRead (base + k) = .ok b := by
  obtain ⟨e, he⟩ : ∃ e, eff s.params.oob (base + k) = .ok e := eff_ok_of fun hp => by
    have := h hp
    omega
  exact ⟨_, State.memRead_of_eff he⟩

theorem drawRows_faulted (px py : Nat) (n : Nibble) (hit : Bool) (s : State)
    (h : InReach s.params.oob s.dataBase n.toNat) : (drawRows px py n.toNat 0 hit s).faulted = s.faulted := by
  have hn := n.isLt
  refine ((drawRows_spec px py n.toNat 0 hit s (by omega)).2 fun k hk => ?_).1
  rw [Nat.zero_add]
  exact State.memRead_of_inReach h hk

theorem exec_faulted {i : Instr} {s t : State} (hp : s.params.NoFaults) (h : exec i s = .next t) :
    t.faulted = s.faulted := by
  obtain ⟨hoob, hstack, -⟩ := hp
  cases i
  case ret =>
    rcases exec_ret_cases s with ⟨j, -, -, he⟩ | ⟨hs, -⟩
    · cases he.symm.trans h
      rfl
    · cases hs.symm.trans hstack
  case call nnn =>
    rcases exec_call_cases nnn s with ⟨j, -, -, he⟩ | ⟨hs, -⟩
    · cases he.symm.trans h
      rfl
    · cases hs.symm.trans hstack
  case ldB | stRegs => cases h; exact storeBytes_faulted _ _ s (inReach_of_ne_fault hoob _ _)
  case ldRegs => cases h; exact loadBytes_faulted _ _ s (inReach_of_ne_fault hoob _ _)
  case drw => cases h; exact drawRows_faulted _ _ _ _ s (inReach_of_ne_fault hoob _ _)
  all_goals exact exec_frame h .faulted (by simp [footprint])

theorem faulted_of_step_of_noFaults {s t : State} (hp : s.params.NoFaults) (h : step s = .next t) : t.faulted = none := by
  have hf := faulted_of_step h
  cases stepWay_of_step h with
  | paused => exact hf
  | fetchFault _ hoob => exact absurd hoob hp.1
  | unrecognized => exact hf
  | executed hr hw hd he =>
    rw [State.timersAfter_faulted, exec_faulted (by rwa [State.timersBefore_advance_params]) he, State.advance_faulted,
      State.timersBefore_faulted, hf]
  | refused _ _ _ hv =>
    obtain ⟨-, -, hseq⟩ := hp
    cases hv.symm.trans hseq

/-- Settles O17: every step of an unfaulted state answers (`step_answers`), and each of its ways that marks a fault needs a
parameter that NoFaults excludes. -/
theorem everyWordExecutesToCompletion : Obligations.EveryWordExecutesToCompletion := by
  intro s hp hf
  obtain ⟨t, ht, -⟩ := step_answers hf
  exact ⟨t, ht, faulted_of_step_of_noFaults hp ht⟩

/-! ### `VF` as an operand -/

theorem vfRefused_of_refuse {p : VfAlias} (hp : p = .refuse) {l : List Reg} (hl : VF ∈ l) : vfRefused p l = true :=
  (vfRefused_iff p l).2 ⟨hp, hl⟩

theorem exec_of_usesVf {i : Instr} {s : State} (hv : s.params.vfAlias = .refuse) (hu : UsesVfAsOperand i) :
    exec i s = .refused .vfOperand := by
  obtain ⟨x, y, hi, hxy⟩ | ⟨y, hi⟩ := hu
  · have hmem : VF ∈ [x, y] := by
      rcases hxy with rfl | rfl <;> simp
    rcases hi with rfl | rfl <;> exact if_pos (vfRefused_of_refuse hv hmem)
  · rcases hi with rfl | rfl <;> exact if_pos (vfRefused_of_refuse hv (by simp))

/-- Settles O40: with the parameter at refuse `exec` refuses all these instructions, and of the ways of a step only the
refusal sets this mark, since an execution marks addresses and slots alone (`exec_mark`). -/
theorem refusedVfOperandLeavesTheStateBeforeTheStep : Obligations.RefusedVfOperandLeavesTheStateBeforeTheStep := by
  refine ⟨fun s w i hv hr hw hd hu => ?_, fun s t w h hmark => ?_⟩
  · exact ⟨_, step_of_refused hr hw hd (exec_of_usesVf (by rwa [State.timersBefore_advance_params]) hu), rfl,
      frame_markFault s _⟩
  · have hf := faulted_of_step h
    cases stepWay_of_step h with
    | paused => cases hf.symm.trans hmark
    | fetchFault => cases hmark
    | unrecognized => cases hf.symm.trans hmark
    | executed hr hw hd he =>
      rw [State.timersAfter_faulted] at hmark
      rcases exec_mark he with hm | ⟨a, hm⟩ | ⟨sp, hm⟩
      · rw [State.advance_faulted, State.timersBefore_faulted, hf] at hm
        cases hm.symm.trans hmark
      · cases hm.symm.trans hmark
      · cases hm.symm.trans hmark
    | refused hr hw hd hv hu =>
      cases hmark
      exact ⟨hv, hr, hw, _, hd, hu⟩

/-! ### The Display, the Keyboard and the wait -/

theorem exec_ldVxK (x : Reg) (s : State) : exec (.ldVxK x) s = .next ((s.setPaused true).setOnKeyPress x) := rfl

theorem eq_ldVxK_of_mem_footprint {i : Instr} (h : .paused ∈ footprint i ∨ .pending ∈ footprint i) :
    ∃ x, i = .ldVxK x := by
  cases i <;> simp [footprint] at h ⊢

/-- An execution leaves the pause and the wait, or begins a wait. -/
theorem exec_wait {i : Instr} {s t : State} (h : exec i s = .next t) :
    (t.paused = s.paused ∧ t.pending = s.pending) ∨ (t.paused = true ∧ ∃ x, t.pending = some x) := by
  by_cases hi : .paused ∈ footprint i ∨ .pending ∈ footprint i
  · obtain ⟨x, rfl⟩ := eq_ldVxK_of_mem_footprint hi
    cases h
    exact .inr ⟨rfl, x, rfl⟩
  · rw [not_or] at hi
    exact .inl ⟨exec_frame h .paused hi.1, exec_frame h .pending hi.2⟩

/-- A step leaves the pause and the wait, or begins a wait. -/
theorem step_wait {s t : State} (h : step s = .next t) :
    (t.paused = s.paused ∧ t.pending = s.pending) ∨ (t.paused = true ∧ ∃ x, t.pending = some x) := by
  cases stepWay_of_step h with
  | paused | unrecognized | refused => exact .inl ⟨rfl, rfl⟩
  | fetchFault => exact .inl ⟨frame_timersBefore s .paused (by decide), frame_timersBefore s .pending (by decide)⟩
  | @executed w i u hr hw hd he =>
    have hbefore := frame_timersBefore_advance s
    have hafter := frame_timersAfter u
    rw [hafter .paused (by decide), hafter .pending (by decide), ← hbefore .paused (by decide),
      ← hbefore .pending (by decide)]
    exact exec_wait he

/-- Settles O21: the footprints of all but the named instructions leave these pieces out, and a step that does not begin a
wait keeps the pending register. -/
theorem stepsTouchDisplayAndKeyboardOnlyByTheirInstructions :
    Obligations.StepsTouchDisplayAndKeyboardOnlyByTheirInstructions := by
  refine ⟨fun i s t h => ⟨fun ⟨c, r, hne⟩ => ?_, fun hne => ?_⟩, fun s t h => ⟨pressed_of_step h, fun ht => ?_⟩⟩
  · have hmem : .fb ∈ footprint i := by_contra fun hm => hne (exec_frame h .fb hm c r)
    cases i <;> simp [footprint] at hmem ⊢
  · refine eq_ldVxK_of_mem_footprint (by_contra fun hm => ?_)
    rw [not_or] at hm
    rcases hne with hne | hne
    · exact hne (exec_frame h .pending hm.2)
    · exact hne (exec_frame h .paused hm.1)
  · rcases step_wait h with ⟨-, hkept⟩ | ⟨-, x, hx⟩
    · exact hkept.symm.trans ht
    · cases hx.symm.trans ht

end Sys2Proof.Machine
end

section
/-! PROOFS. The invariant: it holds after reset, and every step and every operation of the host keeps it (R33). -/

namespace Sys2Proof.Machine

/-! ### Memory in its canonical form -/

/-- The memory list changes only by a store. -/
theorem exec_mem {i : Instr} {s t : State} (h : exec i s = .next t) :
    t.mem = s.mem ∨ ∃ bs a, t.mem = (storeBytes bs a s).mem := by
  cases i
  case ldB => cases h; exact .inr ⟨_, _, rfl⟩
  case stRegs => cases h; exact .inr ⟨_, _, rfl⟩
  all_goals left
  case ret =>
    rcases exec_ret_cases s with ⟨j, -, -, he⟩ | ⟨-, -, he⟩ <;> cases he.symm.trans h <;> rfl
  case call nnn =>
    rcases exec_call_cases nnn s with ⟨j, -, -, he⟩ | ⟨-, -, he⟩ <;> cases he.symm.trans h <;> rfl
  case subReg | shr | subn | shl =>
    rw [← eq_of_unrefused h]
    rfl
  all_goals cases h
  case ldRegs x =>
    obtain ⟨v, f, hv⟩ := loadBytes_shape (regsUpTo x) s.dataBase s
    rw [hv]
  case drw x y n =>
    obtain ⟨g, v, f, hv⟩ := drawRows_shape (s.reg x).toNat (s.reg y).toNat n.toNat 0 false s
    rw [hv]
  case seImm | sneImm | seReg | sneReg | skp | sknp =>
    rw [State.skipIf_eq]
    rfl
  all_goals rfl

theorem exec_memWf {i : Instr} {s t : State} (h : exec i s = .next t) (hs : memWf s.params.font s.mem = true) :
    memWf t.params.font t.mem = true := by
  rw [exec_params h]
  rcases exec_mem h with hm | ⟨bs, a, hm⟩ <;> rw [hm]
  · exact hs
  · exact storeBytes_wf bs a s hs

@[simp] theorem State.timersBefore_mem (s : State) : s.timersBefore.mem = s.mem := by
  obtain ⟨a, b, h⟩ := s.timersBefore_shape
  rw [h]

@[simp] theorem State.timersAfter_mem (s : State) : s.timersAfter.mem = s.mem := by
  obtain ⟨a, b, h⟩ := s.timersAfter_shape
  rw [h]

theorem memWf_of_step {s t : State} (h : step s = .next t) (hs : memWf s.params.font s.mem = true) :
    memWf t.params.font t.mem = true := by
  cases stepWay_of_step h with
  | paused | unrecognized | refused => exact hs
  | fetchFault => simpa using hs
  | executed hr hw hd he =>
    have hwf := exec_memWf he (by simpa using hs)
    rwa [State.timersAfter_params, State.timersAfter_mem]

/-! ### The invariant after reset and after a step -/

theorem inv_resetWith (p : Params) : (State.resetWith p).Inv := ⟨memWf_resetWith p, by simp [State.resetWith]⟩

/-- Settles O25: memory has no entry, and neither `paused` nor `pending` is set. -/
theorem resetMeetsTheInvariant : Obligations.ResetMeetsTheInvariant := ⟨inv_resetWith _, inv_resetWith⟩

theorem inv_of_step {s t : State} (hs : s.Inv) (h : step s = .next t) : t.Inv := by
  obtain ⟨hmem, hwait⟩ := hs
  refine ⟨memWf_of_step h hmem, ?_⟩
  rcases step_wait h with ⟨hp, hq⟩ | ⟨hp, x, hx⟩
  · rw [hp, hq]
    exact hwait
  · simp [hp, hx]

/-- Settles O26: memory by `memWf_of_step`, and a step that touches the wait sets both its halves. -/
theorem everyStepKeepsTheInvariant : Obligations.EveryStepKeepsTheInvariant := fun _ _ => inv_of_step

/-! ### The invariant under the host's operations -/

theorem inv_hostReset {s t : State} (h : hostReset s = .next t) : t.Inv ∧ t.params = s.params := by
  cases h
  exact ⟨inv_resetWith s.params, rfl⟩

theorem inv_loadProgram {bytes : List Byte} {s t : State} (hs : s.Inv) (h : loadProgram bytes s = .next t) :
    t.Inv ∧ t.params = s.params := by
  unfold loadProgram at h
  split at h <;> cases h
  rename_i hlen
  have hlen : bytes.length ≤ 3584 := of_decide_eq_true hlen
  have hwf := copyImage_wf bytes progBase s (by simp only [progBase, memSize]; omega) hs.1
  obtain ⟨m, hm⟩ := copyImage_shape bytes progBase s
  rw [hm] at hwf ⊢
  exact ⟨⟨hwf, hs.2⟩, rfl⟩

/-- Firing the wait ends both its halves; with nothing pending it changes nothing. -/
theorem inv_firePending {s : State} (hs : s.Inv) (k : Nibble) :
    (s.firePending k).Inv ∧ (s.firePending k).params = s.params := by
  cases h : s.pending with
  | none =>
    rw [State.firePending_of_none h]
    exact ⟨hs, rfl⟩
  | some x =>
    rw [State.firePending_of_some h]
    exact ⟨⟨hs.1, by simp⟩, rfl⟩

theorem inv_onKeyDown {key : Nat} {s t : State} (hs : s.Inv) (h : onKeyDown key s = .next t) :
    t.Inv ∧ t.params = s.params := by
  unfold onKeyDown at h
  split at h <;> cases h
  exact inv_firePending hs _

theorem inv_onKeyUp {key : Nat} {s t : State} (hs : s.Inv) (h : onKeyUp key s = .next t) :
    t.Inv ∧ t.params = s.params := by
  unfold onKeyUp at h
  split at h <;> cases h
  exact ⟨hs, rfl⟩

theorem inv_hostApply {op : HostOp} {s t : State} (hs : s.Inv) (h : hostApply op s = .next t) :
    t.Inv ∧ t.params = s.params := by
  cases op with
  | reset => exact inv_hostReset h
  | loadProgram bytes => exact inv_loadProgram hs h
  | step => exact ⟨inv_of_step hs h, params_of_step h⟩
  | onKeyDown key => exact inv_onKeyDown hs h
  | onKeyUp key => exact inv_onKeyUp hs h
  | getDisplay => cases h; exact ⟨hs, rfl⟩

theorem hostRun_cons {op : HostOp} {rest : List HostOp} {s u : State} (h : hostRun (op :: rest) s = .next u) :
    ∃ t, hostApply op s = .next t ∧ hostRun rest t = .next u := by
  rw [hostRun] at h
  split at h
  next t ht => exact ⟨t, ht, h⟩
  all_goals cases h

theorem inv_hostRun {ops : List HostOp} {s t : State} (hs : s.Inv) (h : hostRun ops s = .next t) :
    t.Inv ∧ t.params = s.params := by
  induction ops generalizing s with
  | nil => cases h; exact ⟨hs, rfl⟩
  | cons op rest ih =>
    obtain ⟨u, hu, hrest⟩ := hostRun_cons h
    obtain ⟨huinv, hup⟩ := inv_hostApply hs hu
    obtain ⟨htinv, htp⟩ := ih huinv hrest
    exact ⟨htinv, htp.trans hup⟩

/-- Settles O27: each operation keeps both, so a sequence of them does; and reset meets the invariant. -/
theorem everyHostSequenceKeepsTheInvariant : Obligations.EveryHostSequenceKeepsTheInvariant :=
  ⟨fun _ _ _ hs h => inv_hostRun hs h, fun _ p _ h => (inv_hostRun (inv_resetWith p) h).1⟩

end Sys2Proof.Machine
end

section
/-! PROOFS. The timers: the decrement of each step, and the three transfers (R91, R96, R220 to R223). -/

namespace Sys2Proof.Machine

/-! ### The decrement of a step -/

/-- In either order, a timer that the execution does not set is decremented once. -/
theorem timers_of_executed {i : Instr} {s t : State} (he : exec i s.timersBefore.advance = .next t)
    (hf : t.faulted = none) :
    (.dt ∉ footprint i → t.timersAfter.dt = decTimer s.dt) ∧ (.st ∉ footprint i → t.timersAfter.st = decTimer s.st) := by
  have hp : t.params = s.params := (exec_params he).trans s.timersBefore_advance_params
  cases ho : s.params.timers with
  | afterExecute =>
    rw [State.timersBefore_of_afterExecute ho] at he
    rw [State.timersAfter_of_afterExecute (hp ▸ ho) hf]
    exact ⟨fun hi => congrArg decTimer (exec_frame he .dt hi), fun hi => congrArg decTimer (exec_frame he .st hi)⟩
  | beforeFetch =>
    rw [State.timersBefore_of_beforeFetch ho] at he
    rw [State.timersAfter_of_beforeFetch (hp ▸ ho)]
    exact ⟨exec_frame he .dt, exec_frame he .st⟩

theorem eq_ldDTVx_of_mem_footprint {i : Instr} (h : .dt ∈ footprint i) : ∃ x, i = .ldDTVx x := by
  cases i <;> simp [footprint] at h ⊢

theorem eq_ldSTVx_of_mem_footprint {i : Instr} (h : .st ∈ footprint i) : ∃ x, i = .ldSTVx x := by
  cases i <;> simp [footprint] at h ⊢

/-- Settles O22: a step that ends unfaulted was paused, met an unrecognized word, or executed an instruction, and `DT` and
`ST` are each in the footprint of one instruction. -/
theorem timersCountUnpausedSteps : Obligations.TimersCountUnpausedSteps := by
  intro s t h hf
  cases stepWay_of_step h with
  | paused hp =>
    have hno : s.paused ≠ false := by rw [hp]; decide
    exact ⟨fun _ => ⟨rfl, rfl⟩, fun hrun => absurd hrun hno, fun hrun => absurd hrun hno⟩
  | fetchFault => cases hf
  | refused => cases hf
  | unrecognized hr =>
    have hno : s.paused ≠ true := by rw [hr.2]; decide
    exact ⟨fun hp => absurd hp hno, fun _ _ => decTimer_toNat s.dt, fun _ _ => decTimer_toNat s.st⟩
  | executed hr hw hd he =>
    rw [State.timersAfter_faulted] at hf
    have hno : s.paused ≠ true := by rw [hr.2]; decide
    obtain ⟨hdt, hst⟩ := timers_of_executed he hf
    refine ⟨fun hp => absurd hp hno, fun _ hno => ?_, fun _ hno => ?_⟩
    · rw [hdt fun hm => ?_, decTimer_toNat]
      obtain ⟨x, rfl⟩ := eq_ldDTVx_of_mem_footprint hm
      exact hno x ⟨hr, _, hw, hd⟩
    · rw [hst fun hm => ?_, decTimer_toNat]
      obtain ⟨x, rfl⟩ := eq_ldSTVx_of_mem_footprint hm
      exact hno x ⟨hr, _, hw, hd⟩

/-! ### The timer instructions -/

theorem exec_ldVxDT (x : Reg) (s : State) : exec (.ldVxDT x) s = .next (s.setReg x s.dt) := rfl

theorem exec_ldDTVx (x : Reg) (s : State) : exec (.ldDTVx x) s = .next (s.setDt (s.reg x)) := rfl

theorem exec_ldSTVx (x : Reg) (s : State) : exec (.ldSTVx x) s = .next (s.setSt (s.reg x)) := rfl

/-- Settles O58: each is one write, of the register or of the timer. -/
theorem timerTransfers : Obligations.TimerTransfers := fun s x =>
  ⟨wordXkk_fixed_first 0xF x 0x07 ▸ decodesTo_encode (.ldVxDT x),
    wordXkk_fixed_first 0xF x 0x15 ▸ decodesTo_encode (.ldDTVx x),
    wordXkk_fixed_first 0xF x 0x18 ▸ decodesTo_encode (.ldSTVx x),
    ⟨_, exec_ldVxDT x s, s.reg_setReg_self x _, regFrame_setReg s x _, frame_setReg s x _⟩,
    ⟨_, exec_ldDTVx x s, rfl, frame_setDt s _⟩, ⟨_, exec_ldSTVx x s, rfl, frame_setSt s _⟩⟩

/-- Settles O59: the decrement of after_execute comes after the transfer, that of before_fetch before it. -/
theorem timerStepsAsTheHostSeesThem : Obligations.TimerStepsAsTheHostSeesThem := by
  intro s x
  refine ⟨fun h => ⟨_, step_of_aboutToRun h (exec_ldDTVx x _), ?_⟩,
    fun h => ⟨_, step_of_aboutToRun h (exec_ldSTVx x _), ?_⟩,
    fun h => ⟨_, step_of_aboutToRun h (exec_ldVxDT x _), ?_, ?_⟩⟩
  all_goals
    have hf : s.faulted = none := h.1.1
    cases ho : s.params.timers <;>
      simp [State.timersBefore_eq, State.timersAfter_eq, ho, hf, decTimer_toNat]

end Sys2Proof.Machine
end

section
/-! PROOFS. Runs of steps: the end of a run, and the wait until a key-down (R208, R209, R249). -/

namespace Sys2Proof.Machine

/-! ### Runs -/

theorem run_succ_of_step {M : Host.Core} {s t : M.State} (h : M.step s = .next t) (n : Nat) :
    M.run (n + 1) s = M.run n t := by
  rw [Host.Core.run, h]

theorem step_of_run_succ {M : Host.Core} {s u : M.State} {n : Nat} (h : M.run (n + 1) s = .next u) :
    ∃ t, M.step s = .next t ∧ M.run n t = .next u := by
  rw [Host.Core.run] at h
  split at h
  next t ht => exact ⟨t, ht, h⟩
  all_goals cases h

/-! ### The end of a run -/

theorem step_of_endedAt {s : State} {nnn : Addr12} (h : s.EndedAt nnn) : step s = .next s.decTimers := by
  obtain ⟨hr, hpc, hw⟩ := h
  have hrun : s.AboutToRun (.jp nnn) := ⟨hr, _, hw, decode_encode _ _⟩
  have hf : s.faulted = none := hr.1
  rw [step_of_aboutToRun hrun (exec_jp nnn _)]
  have hback : s.timersBefore.advance.setPc (zextAddr nnn) = s.timersBefore := by
    rw [← hpc, ← State.timersBefore_pc]
    rfl
  rw [hback]
  cases ho : s.params.timers <;> simp [State.timersBefore_eq, State.timersAfter_eq, ho, hf]

theorem endedAt_decTimers {s : State} {nnn : Addr12} (h : s.EndedAt nnn) : s.decTimers.EndedAt nnn := h

/-- Settles O24: a step of an ended run is a decrement of the timers, which leaves it ended. -/
theorem endedRunChangesOnlyTheTimers : Obligations.EndedRunChangesOnlyTheTimers := by
  intro n
  induction n with
  | zero => exact fun s nnn h => ⟨s, rfl, h, Frame.refl s _, rfl, rfl⟩
  | succ n ih =>
    intro s nnn h
    obtain ⟨t, hrun, hend, hframe, hdt, hst⟩ := ih s.decTimers nnn (endedAt_decTimers h)
    rw [State.decTimers_dt, decTimer_toNat] at hdt
    rw [State.decTimers_st, decTimer_toNat] at hst
    have hfirst := run_succ_of_step (M := core) (step_of_endedAt h) n
    exact ⟨t, hfirst.trans hrun, hend, (frame_decTimers s).trans hframe, by omega, by omega⟩

/-! ### The wait -/

/-- The state in which `Fx0A` leaves the block: waiting at the next instruction, with the timers decremented. -/
def State.waiting (s : State) (x : Reg) : State := (s.decTimers.advance.setPaused true).setOnKeyPress x

theorem frame_waiting (s : State) (x : Reg) : Frame s (s.waiting x) [.pc, .dt, .st, .paused, .pending] := by
  simp [frame_iff, State.waiting]

theorem waiting_faulted (s : State) (x : Reg) : (s.waiting x).faulted = s.faulted :=
  frame_waiting s x .faulted (by decide)

theorem step_of_aboutToWait {s : State} {x : Reg} (h : s.AboutToRun (.ldVxK x)) : step s = .next (s.waiting x) := by
  have hf : s.faulted = none := h.1.1
  rw [step_of_aboutToRun h (exec_ldVxK x _)]
  cases ho : s.params.timers <;> simp [State.timersBefore_eq, State.timersAfter_eq, ho, hf] <;> rfl

theorem run_of_aboutToWait {s : State} {x : Reg} (h : s.AboutToRun (.ldVxK x)) (n : Nat) :
    core.run (n + 1) s = .next (s.waiting x) := by
  rw [run_succ_of_step (M := core) (step_of_aboutToWait h)]
  have hstay : step (s.waiting x) = .next (s.waiting x) := step_of_paused rfl ((waiting_faulted s x).trans h.1.1)
  exact run_of_step_eq (M := core) hstay n

/-- Steps that the host runs one after another are a run, after which the other operations follow. -/
theorem hostRun_steps_append {n : Nat} {s t : State} (h : core.run n s = .next t) (ops : List HostOp) :
    hostRun (List.replicate n .step ++ ops) s = hostRun ops t := by
  induction n generalizing s with
  | zero => cases h; rfl
  | succ n ih =>
    obtain ⟨u, hu, hrun⟩ := step_of_run_succ (M := core) h
    have hfirst : hostApply .step s = .next u := hu
    rw [List.replicate_succ, List.cons_append, hostRun, hfirst]
    exact ih hrun

/-- Settles O56: the first step begins the wait, all others are steps while paused, and the key-down fires the wait. -/
theorem waitHoldsUntilAKeyDown : Obligations.WaitHoldsUntilAKeyDown := by
  intro s x n k h hk
  have hrun := run_of_aboutToWait h n
  obtain ⟨u, hu, -, hfires, -⟩ := keyDownFiresThePendingWait (s.waiting x) k hk
  obtain ⟨hreg, hregs, hpaused, hpending, hframe⟩ := hfires x rfl
  have hfaulted : u.faulted = (s.waiting x).faulted := hframe .faulted (by decide)
  rw [waiting_faulted, h.1.1] at hfaulted
  refine ⟨⟨_, hrun, rfl, rfl, rfl, decTimer_toNat s.dt, decTimer_toNat s.st, frame_waiting s x⟩,
    u, ?_, ⟨hfaulted, hpaused⟩, hpending, hframe .pc (by decide), hreg, hregs⟩
  rw [hostRun_steps_append hrun, hostRun, hu]
  rfl

end Sys2Proof.Machine
end

section
/-! PROOFS. The two timer orders: a program cannot tell them apart (R96; decision D4). -/

namespace Sys2Proof.Machine

/-! ### An execution under another timer order -/

/-- The state under another timer order. -/
def State.withTimerOrder (s : State) (o : TimerOrder) : State := { s with params := { s.params with timers := o } }

theorem storeBytes_withTimerOrder (o : TimerOrder) (bs : List Byte) (a : Nat) (s : State) :
    storeBytes bs a (s.withTimerOrder o) = (storeBytes bs a s).withTimerOrder o := by
  induction bs generalizing a s with
  | nil => rfl
  | cons b rest ih =>
    have hw : (s.withTimerOrder o).memWrite a b = (s.memWrite a b).map (·.withTimerOrder o) := by
      rw [State.memWrite, State.memWrite, State.withTimerOrder]
      cases eff s.params.oob a <;> rfl
    rw [storeBytes, storeBytes, hw]
    cases s.memWrite a b with
    | ok t => exact ih (a + 1) t
    | error f => rfl

theorem memRead_withTimerOrder (o : TimerOrder) (s : State) (a : Nat) :
    (s.withTimerOrder o).memRead a = s.memRead a := rfl

theorem loadBytes_withTimerOrder (o : TimerOrder) (rs : List Reg) (a : Nat) (s : State) :
    loadBytes rs a (s.withTimerOrder o) = (loadBytes rs a s).withTimerOrder o := by
  induction rs generalizing a s with
  | nil => rfl
  | cons r rest ih =>
    rw [loadBytes, loadBytes, memRead_withTimerOrder]
    cases s.memRead a with
    | ok b => exact ih (a + 1) (s.setReg r b)
    | error f => rfl

theorem drawRows_withTimerOrder (o : TimerOrder) (px py left row : Nat) (hit : Bool) (s : State) :
    drawRows px py left row hit (s.withTimerOrder o) = (drawRows px py left row hit s).withTimerOrder o := by
  induction left generalizing row hit s with
  | zero => rfl
  | succ left ih =>
    have hr : (s.withTimerOrder o).memRead ((s.withTimerOrder o).dataBase + row) = s.memRead (s.dataBase + row) := rfl
    rw [drawRows, drawRows, hr]
    cases s.memRead (s.dataBase + row) with
    | ok b => exact ih (row + 1) _ (s.setFb (drawRow b px (py + row) (s.fb, hit)).1)
    | error f => rfl

/-- An instruction reads nothing of the timer order. -/
theorem exec_withTimerOrder (o : TimerOrder) {i : Instr} {s t : State} (h : exec i s = .next t) :
    exec i (s.withTimerOrder o) = .next (t.withTimerOrder o) := by
  cases i
  case ret =>
    simp only [exec, execRet, State.withTimerOrder] at h ⊢
    cases hj : slotOf s.params.stack s.sp <;> rw [hj] at h <;> cases h <;> rfl
  case call nnn =>
    simp only [exec, execCall, State.withTimerOrder, State.setSp_params, State.setSp_sp] at h ⊢
    cases hj : slotOf s.params.stack (s.sp + 1) <;> rw [hj] at h <;> cases h <;> rfl
  case subReg | shr | subn | shl =>
    simp only [exec, execSubReg, execShr, execSubn, execShl] at h
    split at h <;> cases h
    rename_i hv
    exact if_neg hv
  all_goals cases h
  case ldB x => exact congrArg Host.Outcome.next (storeBytes_withTimerOrder o _ _ s)
  case stRegs x => exact congrArg Host.Outcome.next (storeBytes_withTimerOrder o _ _ s)
  case ldRegs x => exact congrArg Host.Outcome.next (loadBytes_withTimerOrder o _ _ s)
  case drw x y n => exact congrArg Host.Outcome.next (drawRows_withTimerOrder o _ _ _ _ _ s)
  case seImm | sneImm | seReg | sneReg | skp | sknp =>
    rw [State.skipIf_eq]
    exact congrArg Host.Outcome.next (State.skipIf_eq _ _)
  all_goals rfl

/-! ### The simulation -/

/-- One step under before_fetch is one step under after_execute, seen one decrement later on both sides. -/
theorem step_afterOrder {s t : State} (hp : s.params.NoFaults) (ho : s.params.timers = .beforeFetch)
    (h : step s = .next t) : step s.afterOrder = .next t.afterOrder := by
  have hf := faulted_of_step h
  have htf := faulted_of_step_of_noFaults hp h
  cases stepWay_of_step h with
  | paused hpaused => exact step_of_paused hpaused hf
  | fetchFault _ hoob => exact absurd hoob hp.1
  | unrecognized hr hw hd => exact step_of_unrecognized (s := s.afterOrder) hr hw hd
  | @executed w i u hr hw hd he =>
    rw [State.timersBefore_of_beforeFetch ho] at he
    have hu : u.params.timers = .beforeFetch := by rw [exec_params he]; exact ho
    rw [State.timersAfter_faulted] at htf
    rw [State.timersAfter_of_beforeFetch hu]
    have hrun : s.afterOrder.AboutToRun i := ⟨hr, w, hw, hd⟩
    have hbefore : s.afterOrder.timersBefore = s.afterOrder := State.timersBefore_of_afterExecute rfl
    have hafter : (u.withTimerOrder .afterExecute).timersAfter = u.afterOrder :=
      State.timersAfter_of_afterExecute rfl htf
    rw [step_of_aboutToRun hrun (by rw [hbefore]; exact exec_withTimerOrder .afterExecute he), hafter]
  | refused _ _ _ hv =>
    obtain ⟨-, -, hseq⟩ := hp
    cases hv.symm.trans hseq

/-- Settles O23: the one-step simulation `step_afterOrder`, step by step; a step keeps the parameters and faults nowhere. -/
theorem programsCannotTellTheTimerOrdersApart : Obligations.ProgramsCannotTellTheTimerOrdersApart := by
  intro n
  induction n with
  | zero =>
    intro s t _ _ _ h
    cases h
    rfl
  | succ n ih =>
    intro s t hp ho _ h
    obtain ⟨u, hu, hrun⟩ := step_of_run_succ (M := core) h
    rw [run_succ_of_step (M := core) (step_afterOrder hp ho hu)]
    have hup := params_of_step hu
    exact ih u t (hup ▸ hp) (hup ▸ ho) (faulted_of_step_of_noFaults hp hu) hrun

end Sys2Proof.Machine
end

section
/-! PROOFS. Program flow: calls, returns, their nesting, and the skips on two registers (R110, R112, R115, R116, R118). -/

namespace Sys2Proof.Machine

/-! ### CALL and RET -/

/-- Settles O29: the two cases of `exec_call_cases` exclude each other, and each is one clause. -/
theorem callPushesTheReturnAddress : Obligations.CallPushesTheReturnAddress := by
  refine fun s nnn => ⟨decodesTo_encode (.call nnn), fun h => ?_, fun hp hsp => ?_⟩
  · rcases exec_call_cases nnn s with ⟨j, hj, -, he⟩ | ⟨hp, hsp, -⟩
    · have hsp : (s.sp + 1).toNat = (s.sp.toNat + 1) % 256 := BitVec.toNat_add s.sp 1
      refine ⟨_, j, he, hsp, hsp ▸ hj, State.slot_setSlot_self _ j s.pc, fun k hk => ?_, rfl, frame_call s _ _ _ _⟩
      rw [State.slot_setPc, State.slot_setSlot, if_neg hk, State.slot_setSp]
    · rcases h with h | h
      · cases hp.symm.trans h
      · omega
  · rcases exec_call_cases nnn s with ⟨j, -, h | h, -⟩ | ⟨-, -, he⟩
    · cases hp.symm.trans h
    · omega
    · exact ⟨_, he, rfl, rfl, frame_callFault s _ _⟩

theorem decode_keyed_ret (x : Reg) : decode .keyed ((x.setWidth 16 <<< 8) ||| 0x00EE) = .instr .ret := by
  refine (decode_sysWord .keyed x 0xEE).trans ?_
  rw [decodeSys, fieldKk_wordXkk]
  rfl

/-- Settles O30: the two cases of `exec_ret_cases` exclude each other, and each is one clause. -/
theorem returnPopsTheSlotAtSp : Obligations.ReturnPopsTheSlotAtSp := by
  refine fun s x => ⟨decodesTo_encode .ret, decode_keyed_ret x, fun h => ?_, fun hp hsp => ?_⟩
  · rcases exec_ret_cases s with ⟨j, hj, -, he⟩ | ⟨hp, hsp, -⟩
    · refine ⟨_, j, he, hj, rfl, ?_, frame_ret s _ _⟩
      rw [State.setSp_sp, BitVec.toNat_sub, Nat.add_comm]
      rfl
    · rcases h with h | h
      · cases hp.symm.trans h
      · omega
  · rcases exec_ret_cases s with ⟨j, -, h | h, -⟩ | ⟨-, -, he⟩
    · cases hp.symm.trans h
    · omega
    · exact ⟨_, he, rfl, frame_markFault s _⟩

/-! ### Nested calls -/

/-- The slot of a stack pointer under P_STACK = mod16 (R26). -/
def slotIndex (sp : Byte) : Fin 16 := ⟨sp.toNat % 16, Nat.mod_lt _ (by decide)⟩

theorem exec_ret_of_mod16 {s : State} (h : s.params.stack = .mod16) :
    exec .ret s = .next ((s.setPc (s.slot (slotIndex s.sp))).setSp (s.sp - 1)) := by
  rcases exec_ret_cases s with ⟨j, hj, -, he⟩ | ⟨hp, -⟩
  · rw [he, show j = slotIndex s.sp from Fin.ext hj]
  · cases hp.symm.trans h

theorem exec_call_of_mod16 {s : State} (h : s.params.stack = .mod16) (nnn : Addr12) :
    exec (.call nnn) s =
      .next (((s.setSp (s.sp + 1)).setSlot (slotIndex (s.sp + 1)) s.pc).setPc (zextAddr nnn)) := by
  rcases exec_call_cases nnn s with ⟨j, hj, -, he⟩ | ⟨hp, -⟩
  · rw [he, show j = slotIndex (s.sp + 1) from Fin.ext hj]
  · cases hp.symm.trans h

/-- The slots that `k` returns read, from the top of the stack down. -/
theorem returnAddresses_of_mod16 {s : State} (h : s.params.stack = .mod16) (k : Nat) :
    returnAddresses k s = (List.range k).map fun i => s.slot (slotIndex (s.sp - BitVec.ofNat 8 i)) := by
  induction k generalizing s with
  | zero => rfl
  | succ k ih =>
    have hsub (i : Nat) : s.sp - 1 - BitVec.ofNat 8 i = s.sp - BitVec.ofNat 8 (i + 1) := by
      rw [BitVec.ofNat_add, BitVec.sub_sub, BitVec.add_comm 1]
      rfl
    have hrest := ih (s := (s.setPc (s.slot (slotIndex s.sp))).setSp (s.sp - 1)) h
    rw [returnAddresses, exec_ret_of_mod16 h, List.range_succ_eq_map, List.map_cons, List.map_map]
    simp only [hrest, State.setSp_sp, State.slot_setSp, State.slot_setPc, hsub]
    simp [Function.comp_def]

theorem nestCalls_append {calls : List (Word × Addr12)} {c : Word × Addr12} {s t : State}
    (h : nestCalls (calls ++ [c]) s = .next t) :
    ∃ u, nestCalls calls s = .next u ∧ exec (.call c.2) (u.setPc c.1) = .next t := by
  induction calls generalizing s with
  | nil =>
    rw [List.nil_append, nestCalls] at h
    split at h
    next u hu => exact ⟨s, rfl, hu.trans h⟩
    all_goals cases h
  | cons d rest ih =>
    rw [List.cons_append, nestCalls] at h
    split at h
    next u hu =>
      obtain ⟨v, hv, hc⟩ := ih h
      exact ⟨v, by rw [nestCalls, hu]; exact hv, hc⟩
    all_goals cases h

theorem params_of_nestCalls {calls : List (Word × Addr12)} {s t : State} (h : nestCalls calls s = .next t) :
    t.params = s.params := by
  induction calls generalizing s with
  | nil => cases h; rfl
  | cons c rest ih =>
    rw [nestCalls] at h
    split at h
    next u hu => exact (ih h).trans (exec_params (s := s.setPc c.1) hu)
    all_goals cases h

/-- What the last of nested calls leaves: its return address in the slot at the new `SP`, and every other slot as it was. -/
theorem state_of_lastCall {calls : List (Word × Addr12)} {c : Word × Addr12} {s t : State}
    (hp : s.params.stack = .mod16) (h : nestCalls (calls ++ [c]) s = .next t) :
    ∃ u, nestCalls calls s = .next u ∧ t.params = s.params ∧ t.sp = u.sp + 1 ∧ t.slot (slotIndex t.sp) = c.1 ∧
      ∀ j, j ≠ slotIndex t.sp → t.slot j = u.slot j := by
  obtain ⟨u, hu, hc⟩ := nestCalls_append h
  have hup : u.params.stack = .mod16 := by rw [params_of_nestCalls hu, hp]
  refine ⟨u, hu, params_of_nestCalls h, ?_⟩
  cases (exec_call_of_mod16 (s := u.setPc c.1) hup c.2).symm.trans hc
  refine ⟨rfl, State.slot_setSlot_self _ _ _, fun j hj => ?_⟩
  rw [State.slot_setPc, State.slot_setSlot]
  exact if_neg hj

theorem slotIndex_sub_ne {sp : Byte} {i : Nat} (hi : i < 15) :
    slotIndex (sp - BitVec.ofNat 8 i) ≠ slotIndex (sp + 1) := by
  intro h
  have h := congrArg Fin.val h
  simp only [slotIndex, BitVec.toNat_sub, BitVec.toNat_add, BitVec.toNat_ofNat, show (1 : Byte).toNat = 1 from rfl] at h
  omega

/-- Fewer than 16 slots below the top are none of them the one that the next call writes. -/
theorem returnAddresses_of_calls {calls : List (Word × Addr12)} {s t : State} (hp : s.params.stack = .mod16)
    (h : nestCalls calls s = .next t) (hlen : calls.length ≤ 16) :
    returnAddresses calls.length t = (calls.map (·.1)).reverse := by
  induction calls using List.reverseRecOn generalizing t with
  | nil => rfl
  | append_singleton calls c ih =>
    rw [List.length_append, List.length_singleton] at hlen ⊢
    obtain ⟨u, hu, htp, hsp, htop, hbelow⟩ := state_of_lastCall hp h
    have ht : t.params.stack = .mod16 := by rw [htp, hp]
    have hup : u.params.stack = .mod16 := by rw [params_of_nestCalls hu, hp]
    rw [List.map_append, List.reverse_append, ← ih hu (by omega), returnAddresses, exec_ret_of_mod16 ht]
    have hback : t.sp - 1 = u.sp := by rw [hsp, BitVec.add_sub_cancel]
    simp only [State.setSp_pc, State.setPc_pc, htop, hback]
    refine congrArg (c.1 :: ·) ?_
    rw [returnAddresses_of_mod16 (s := (t.setPc c.1).setSp u.sp) ht, returnAddresses_of_mod16 hup]
    refine List.map_congr_left fun i hi => ?_
    refine hbelow _ ?_
    rw [hsp]
    exact slotIndex_sub_ne (by have := List.mem_range.1 hi; omega)

/-- Settles O31: up to 16 by `returnAddresses_of_calls`; the last of 17 returns reads 16 slots below the top, which is the
slot at the top again. -/
theorem sixteenNestedCallsReturn : Obligations.SixteenNestedCallsReturn := by
  refine fun calls s t hp h => ⟨returnAddresses_of_calls hp h, fun hlen => ?_⟩
  rcases List.eq_nil_or_concat' calls with rfl | ⟨init, c, rfl⟩
  · cases hlen
  obtain ⟨u, -, htp, -, htop, -⟩ := state_of_lastCall hp h
  have hwrap : slotIndex (t.sp - BitVec.ofNat 8 16) = slotIndex t.sp := by
    apply Fin.ext
    simp only [slotIndex, BitVec.toNat_sub, BitVec.toNat_ofNat]
    omega
  have hlast : t.slot (slotIndex (t.sp - BitVec.ofNat 8 16)) = c.1 := (congrArg t.slot hwrap).trans htop
  rw [returnAddresses_of_mod16 (by rw [htp, hp]), List.range_succ, List.map_append, List.map_singleton, hlast]
  simp

/-! ### Skips on two registers -/

theorem decode_strict_seReg_iff (x y : Reg) (n : Nibble) :
    decode .strict (wordXyn 5 x y n) = .instr (.seReg x y) ↔ n = 0 := by
  rw [decode_of_op5 .strict (fieldOp_wordXyn 5 x y n), fieldN_wordXyn, fieldX_wordXyn, fieldY_wordXyn, ← fixedZero_strict]
  simp

theorem decode_strict_sneReg_iff (x y : Reg) (n : Nibble) :
    decode .strict (wordXyn 9 x y n) = .instr (.sneReg x y) ↔ n = 0 := by
  rw [decode_of_op9 .strict (fieldOp_wordXyn 9 x y n), fieldN_wordXyn, fieldX_wordXyn, fieldY_wordXyn, ← fixedZero_strict]
  simp

theorem decode_keyed_seReg (x y : Reg) (n : Nibble) : decode .keyed (wordXyn 5 x y n) = .instr (.seReg x y) := by
  rw [decode_of_op5 .keyed (fieldOp_wordXyn 5 x y n), fixedZero_keyed, fieldX_wordXyn, fieldY_wordXyn]
  rfl

theorem decode_keyed_sneReg (x y : Reg) (n : Nibble) : decode .keyed (wordXyn 9 x y n) = .instr (.sneReg x y) := by
  rw [decode_of_op9 .keyed (fieldOp_wordXyn 9 x y n), fixedZero_keyed, fieldX_wordXyn, fieldY_wordXyn]
  rfl

theorem exec_seReg (x y : Reg) (s : State) :
    exec (.seReg x y) s = .next (s.skipIf (decide (s.reg x = s.reg y))) := rfl

theorem exec_sneReg (x y : Reg) (s : State) :
    exec (.sneReg x y) s = .next (s.skipIf (decide (s.reg x ≠ s.reg y))) := rfl

/-- Settles O33: both are a skip on one comparison, and the last digit is fixed by the mode alone. -/
theorem registerSkipsCompare : Obligations.RegisterSkipsCompare := by
  refine fun s x y n => ⟨decode_strict_seReg_iff x y n, decode_strict_sneReg_iff x y n, decode_keyed_seReg x y n,
    decode_keyed_sneReg x y n, ⟨_, exec_seReg x y s, frame_skipIf s _, ?_⟩, ⟨_, exec_sneReg x y s, frame_skipIf s _, ?_⟩⟩
  · rw [skipIf_pc_toNat]
    simp only [decide_eq_true_eq]
  · rw [skipIf_pc_toNat]
    simp only [decide_eq_true_eq, ite_not]

end Sys2Proof.Machine
end

section
/-! PROOFS. Register arithmetic and logic: the subtractions and shifts, with and without `VF` as an operand, and the random
byte (R141 to R145, R150, R151). -/

namespace Sys2Proof.Machine

/-! ### What "the flag, then the result" leaves -/

theorem regFrame_flagThenResult (s : State) (flag : Byte) (x : Reg) (result : State → Byte) :
    RegFrame s (s.flagThenResult flag x result) [x, VF] := by
  intro r hr
  have hx : r ≠ x := List.ne_of_not_mem_cons hr
  have hvf : r ≠ VF := List.ne_of_not_mem_cons (List.not_mem_of_not_mem_cons hr)
  exact (State.reg_setReg_ne _ _ hx).trans (State.reg_setReg_ne _ _ hvf)

theorem regFrame_flagThenResult_vf (s : State) (flag : Byte) (result : State → Byte) :
    RegFrame s (s.flagThenResult flag VF result) [VF] := fun r hr =>
  regFrame_flagThenResult s flag VF result r (by simpa using hr)

/-- The result reads the state that the write of the flag left (R11). -/
theorem State.reg_flagThenResult_dest (s : State) (flag : Byte) (x : Reg) (result : State → Byte) :
    (s.flagThenResult flag x result).reg x = result (s.setReg VF flag) := State.reg_setReg_self _ x _

theorem State.reg_flagThenResult_vf (s : State) (flag : Byte) {x : Reg} (result : State → Byte) (hx : x ≠ VF) :
    (s.flagThenResult flag x result).reg VF = flag :=
  (State.reg_setReg_ne _ _ hx.symm).trans (State.reg_setReg_self s VF flag)

/-! ### The values -/

theorem sub_toNat (a b : Byte) : (a - b).toNat = (a.toNat + 256 - b.toNat) % 256 := by
  have hb := b.isLt
  rw [BitVec.toNat_sub]
  omega

theorem greaterFlag_toNat (a b : Byte) : (greaterFlag a b).toNat = if a.toNat > b.toNat then 1 else 0 :=
  apply_ite BitVec.toNat _ _ _

theorem shrFlag_toNat (a : Byte) : (shrFlag a).toNat = a.toNat % 2 := by
  rw [shrFlag, BitVec.toNat_and]
  exact Nat.and_one_is_mod a.toNat

theorem shlFlag_toNat (a : Byte) : (shlFlag a).toNat = a.toNat / 128 * 128 := by
  have ha := a.isLt
  rw [shlFlag, BitVec.toNat_and]
  refine (Nat.and_two_pow a.toNat 7).trans ?_
  rw [Nat.testBit_eq_decide_div_mod_eq, show a.toNat / 2 ^ 7 % 2 = a.toNat / 128 by omega]
  rcases Nat.lt_or_ge a.toNat 128 with h | h
  · rw [Nat.div_eq_of_lt h]
    rfl
  · rw [show a.toNat / 128 = 1 by omega]
    rfl

theorem shr_toNat (a : Byte) : (a >>> 1).toNat = a.toNat / 2 := BitVec.toNat_ushiftRight a 1

theorem shl_toNat (a : Byte) : (a <<< 1).toNat = a.toNat * 2 % 256 := by
  rw [BitVec.toNat_shiftLeft, Nat.shiftLeft_eq]

/-! ### The four instructions, where `VF` is not refused -/

theorem vfRefused_of_not_mem (p : VfAlias) {l : List Reg} (h : VF ∉ l) : vfRefused p l = false :=
  Bool.eq_false_iff.2 fun hr => h ((vfRefused_iff p l).1 hr).2

theorem exec_subReg {s : State} {x y : Reg} (h : vfRefused s.params.vfAlias [x, y] = false) :
    exec (.subReg x y) s =
      .next (s.flagThenResult (greaterFlag (s.reg x) (s.reg y)) x fun t => t.reg x - t.reg y) := by
  rw [exec, execSubReg, h]
  rfl

theorem exec_subn {s : State} {x y : Reg} (h : vfRefused s.params.vfAlias [x, y] = false) :
    exec (.subn x y) s =
      .next (s.flagThenResult (greaterFlag (s.reg y) (s.reg x)) x fun t => t.reg y - t.reg x) := by
  rw [exec, execSubn, h]
  rfl

theorem exec_shr {s : State} {x y : Reg} (h : vfRefused s.params.vfAlias [x] = false) :
    exec (.shr x y) s = .next (s.flagThenResult (shrFlag (s.reg x)) x fun t => t.reg x >>> 1) := by
  rw [exec, execShr, h]
  rfl

theorem exec_shl {s : State} {x y : Reg} (h : vfRefused s.params.vfAlias [x] = false) :
    exec (.shl x y) s = .next (s.flagThenResult (shlFlag (s.reg x)) x fun t => t.reg x <<< 1) := by
  rw [exec, execShl, h]
  rfl

/-- Settles O37: with neither operand `VF`, the write of the flag leaves both operands as they were. -/
theorem subtractSetsTheStrictFlag : Obligations.SubtractSetsTheStrictFlag := by
  refine fun s x y => ⟨wordXyn_fixed_first 8 x y 5 ▸ decodesTo_encode (.subReg x y),
    wordXyn_fixed_first 8 x y 7 ▸ decodesTo_encode (.subn x y), fun hx hy => ?_⟩
  have hr : vfRefused s.params.vfAlias [x, y] = false := vfRefused_of_not_mem _ (by simp [hx.symm, hy.symm])
  refine ⟨⟨_, exec_subReg hr, ?_, ?_, regFrame_flagThenResult s _ x _, frame_flagThenResult s _ x _⟩,
    ⟨_, exec_subn hr, ?_, ?_, regFrame_flagThenResult s _ x _, frame_flagThenResult s _ x _⟩⟩
  · rw [State.reg_flagThenResult_dest, State.reg_setReg_ne s _ hx, State.reg_setReg_ne s _ hy, sub_toNat]
  · rw [State.reg_flagThenResult_vf s _ _ hx, greaterFlag_toNat]
  · rw [State.reg_flagThenResult_dest, State.reg_setReg_ne s _ hx, State.reg_setReg_ne s _ hy, sub_toNat]
  · rw [State.reg_flagThenResult_vf s _ _ hx, greaterFlag_toNat]

/-- Settles O38: with the operand not `VF`, the write of the flag leaves it as it was. -/
theorem shiftsByOneSetTheBitShiftedOut : Obligations.ShiftsByOneSetTheBitShiftedOut := by
  refine fun s x y => ⟨wordXyn_fixed_first 8 x y 6 ▸ decodesTo_encode (.shr x y),
    wordXyn_fixed_first 8 x y 0xE ▸ decodesTo_encode (.shl x y), fun hx => ?_⟩
  have hr : vfRefused s.params.vfAlias [x] = false := vfRefused_of_not_mem _ (by simp [hx.symm])
  refine ⟨⟨_, exec_shr hr, ?_, ?_, regFrame_flagThenResult s _ x _, frame_flagThenResult s _ x _⟩,
    ⟨_, exec_shl hr, ?_, ?_, regFrame_flagThenResult s _ x _, frame_flagThenResult s _ x _⟩⟩
  · rw [State.reg_flagThenResult_dest, State.reg_setReg_ne s _ hx, shr_toNat]
  · rw [State.reg_flagThenResult_vf s _ _ hx, shrFlag_toNat]
  · rw [State.reg_flagThenResult_dest, State.reg_setReg_ne s _ hx, shl_toNat]
  · rw [State.reg_flagThenResult_vf s _ _ hx, shlFlag_toNat]

/-! ### The four instructions with `VF` as an operand -/

theorem shrFlag_shr (a : Byte) : shrFlag a >>> 1 = 0 := by
  apply BitVec.eq_of_toNat_eq
  rw [shr_toNat, shrFlag_toNat]
  exact Nat.div_eq_of_lt (Nat.mod_lt _ (by decide))

theorem shlFlag_shl (a : Byte) : shlFlag a <<< 1 = 0 := by
  apply BitVec.eq_of_toNat_eq
  rw [shl_toNat, shlFlag_toNat]
  show _ = 0
  omega

/-- Settles O39, row by row of the table: an operand `VF` is read as the flag just written, any other as it was. -/
theorem flagInstructionsWithVfAsOperand : Obligations.FlagInstructionsWithVfAsOperand := by
  intro s x y hseq
  have hr (l : List Reg) : vfRefused s.params.vfAlias l = false := vfRefused_of_sequential hseq l
  refine ⟨fun hy => ⟨_, exec_subReg (hr _), ?_, regFrame_flagThenResult_vf s _ _, frame_flagThenResult s _ _ _⟩,
    fun hx => ⟨_, exec_subReg (hr _), ?_, ?_, regFrame_flagThenResult s _ _ _, frame_flagThenResult s _ _ _⟩,
    ⟨_, exec_subReg (hr _), ?_, regFrame_flagThenResult_vf s _ _, frame_flagThenResult s _ _ _⟩,
    ⟨_, exec_shr (hr _), ?_, regFrame_flagThenResult_vf s _ _, frame_flagThenResult s _ _ _⟩,
    fun hy => ⟨_, exec_subn (hr _), ?_, regFrame_flagThenResult_vf s _ _, frame_flagThenResult s _ _ _⟩,
    fun hx => ⟨_, exec_subn (hr _), ?_, ?_, regFrame_flagThenResult s _ _ _, frame_flagThenResult s _ _ _⟩,
    ⟨_, exec_subn (hr _), ?_, regFrame_flagThenResult_vf s _ _, frame_flagThenResult s _ _ _⟩,
    ⟨_, exec_shl (hr _), ?_, regFrame_flagThenResult_vf s _ _, frame_flagThenResult s _ _ _⟩⟩
  · rw [State.reg_flagThenResult_dest, State.reg_setReg_self, State.reg_setReg_ne s _ hy, sub_toNat, greaterFlag_toNat]
  · rw [State.reg_flagThenResult_vf s _ _ hx, greaterFlag_toNat]
  · rw [State.reg_flagThenResult_vf s _ _ hx, State.reg_flagThenResult_dest, State.reg_setReg_self,
      State.reg_setReg_ne s _ hx, sub_toNat]
  · rw [State.reg_flagThenResult_dest, BitVec.sub_self]
    rfl
  · rw [State.reg_flagThenResult_dest, State.reg_setReg_self, shrFlag_shr]
  · rw [State.reg_flagThenResult_dest, State.reg_setReg_self, State.reg_setReg_ne s _ hy, sub_toNat, greaterFlag_toNat]
  · rw [State.reg_flagThenResult_vf s _ _ hx, greaterFlag_toNat]
  · rw [State.reg_flagThenResult_vf s _ _ hx, State.reg_flagThenResult_dest, State.reg_setReg_self,
      State.reg_setReg_ne s _ hx, sub_toNat]
  · rw [State.reg_flagThenResult_dest, BitVec.sub_self]
    rfl
  · rw [State.reg_flagThenResult_dest, State.reg_setReg_self, shlFlag_shl]

/-! ### The random byte -/

theorem exec_rnd (x : Reg) (kk : Byte) (s : State) :
    exec (.rnd x kk) s = .next (s.countDraw.setReg x (s.randomByte &&& kk)) := rfl

/-- Settles O41: one register write, of the draw and the mask bit by bit, whatever is drawn. -/
theorem randomByteIsMasked : Obligations.RandomByteIsMasked := by
  refine fun s x kk => ⟨decodesTo_encode (.rnd x kk), _, exec_rnd x kk s, rfl, fun k => ?_,
    regFrame_setReg s.countDraw x _, frame_draw s x _⟩
  rw [State.reg_setReg_self, BitVec.getLsbD_and]
  rfl

end Sys2Proof.Machine
end

section
/-! PROOFS. Memory: single reads and writes, the fetch, the transfers of `Fx33`, `Fx55` and `Fx65`, the image copy, and the
fetch of what was stored (R53, R54, R57, R61, R64, R165 to R167, R262). -/

namespace Sys2Proof.Machine

/-! ### One byte -/

/-- Settles O3: the policy's own equations. -/
theorem effectiveAddressFollowsThePolicy : Obligations.EffectiveAddressFollowsThePolicy := fun a =>
  ⟨eff_wrap a, eff_clamp a, fun h => eff_fault_of_lt (by omega), fun h => eff_fault_of_ge (by omega)⟩

/-- Settles O4: a write that does not fault is a write of the byte at the address reached, and a read reads there. -/
theorem readGivesTheLatestWrite : Obligations.ReadGivesTheLatestWrite := by
  intro s t a b h
  rcases s.memWrite_cases a b with ⟨e₀, he₀, hw⟩ | ⟨f, -, hw⟩ <;> cases hw.symm.trans h
  refine ⟨fun c e he hc => ?_, fun c e e' he hc hne => ?_, frame_setByte s e₀ b⟩
  · cases he₀.symm.trans he
    rw [State.memRead_of_eff (s := s.setByte e₀ b) hc, State.byteAt_setByte_self]
  · cases he₀.symm.trans he
    rw [State.memRead_of_eff (s := s.setByte e₀ b) hc, State.memRead_of_eff hc, State.byteAt_setByte_ne s b hne]

/-- Settles O5: `fetch_of_inReach` for the two reads, `wordOfBytes_toNat` for their order. -/
theorem fetchReadsTwoBytesHighFirst : Obligations.FetchReadsTwoBytesHighFirst := fun _ hi lo h =>
  ⟨State.fetch_of_inReach h, wordOfBytes_toNat hi lo⟩

/-! ### What a store is given, and what it leaves -/

theorem StoredFrom.congr {s t : State} {base len : Nat} {byte byte' : Nat → Byte} (h : StoredFrom s t base len byte)
    (heq : ∀ k, k < len → byte k = byte' k) : StoredFrom s t base len byte' :=
  ⟨fun k e hk he hlast => (h.1 k e hk he hlast).trans (heq k hk), h.2⟩

/-- The digits of a byte, hundreds first (R165). -/
theorem decimalDigits_getD (b : Byte) {k : Nat} (hk : k < 3) :
    (decimalDigits b).getD k 0 = BitVec.ofNat 8 (b.toNat / 10 ^ (2 - k) % 10) := by
  have hb := b.isLt
  match k, hk with
  | 0, _ =>
    show BitVec.ofNat 8 (b.toNat / 100) = BitVec.ofNat 8 (b.toNat / 100 % 10)
    rw [Nat.mod_eq_of_lt (by omega)]
  | 1, _ => rfl
  | 2, _ =>
    show BitVec.ofNat 8 (b.toNat % 10) = BitVec.ofNat 8 (b.toNat / 1 % 10)
    rw [Nat.div_one]

@[simp] theorem length_regValues (s : State) (x : Reg) : (s.regValues x).length = x.toNat + 1 := by
  rw [State.regValues, List.length_map, length_regsUpTo]

theorem regValues_getD (s : State) {x : Reg} {k : Nat} (hk : k < x.toNat + 1) :
    (s.regValues x).getD k 0 = s.reg (BitVec.ofNat 4 k) := by
  rw [State.regValues, List.getD_eq_getElem _ _ (by simpa using hk), List.getElem_map, getElem_regsUpTo]

/-- What a store of the decimal digits leaves, whether or not it faults on the way. -/
theorem storedFrom_ldB (s : State) (x : Reg) :
    StoredFrom s (storeBytes (decimalDigits (s.reg x)) s.dataBase s) s.idx.toNat 3
      (fun k => BitVec.ofNat 8 ((s.reg x).toNat / 10 ^ (2 - k) % 10)) :=
  (storeBytes_stored (decimalDigits (s.reg x)) s.dataBase s).congr fun _ => decimalDigits_getD (s.reg x)

/-- What a store of the registers leaves, whether or not it faults on the way. -/
theorem storedFrom_stRegs (s : State) (x : Reg) :
    StoredFrom s (storeBytes (s.regValues x) s.dataBase s) s.idx.toNat (x.toNat + 1)
      (fun k => s.reg (BitVec.ofNat 4 k)) := by
  have h := storeBytes_stored (s.regValues x) s.dataBase s
  rw [length_regValues] at h
  exact h.congr fun _ => regValues_getD s

theorem frame_storeBytes_of_inReach {bs : List Byte} {a : Nat} {s : State} (h : InReach s.params.oob a bs.length) :
    Frame s (storeBytes bs a s) [.mem] :=
  (storeBytes_frame bs a s).erase .faulted (storeBytes_faulted bs a s h) (by decide)

/-! ### The instructions that store -/

theorem exec_ldB (x : Reg) (s : State) :
    exec (.ldB x) s = .next (storeBytes (decimalDigits (s.reg x)) s.dataBase s) := rfl

theorem exec_stRegs (x : Reg) (s : State) :
    exec (.stRegs x) s = .next (storeBytes (s.regValues x) s.dataBase s) := rfl

/-- Settles O43: a store in reach of the three digits. -/
theorem decimalStoreWritesThreeDigits : Obligations.DecimalStoreWritesThreeDigits := fun s x =>
  ⟨wordXkk_fixed_first 0xF x 0x33 ▸ decodesTo_encode (.ldB x), fun h =>
    ⟨_, exec_ldB x s, frame_storeBytes_of_inReach h, storedFrom_ldB s x⟩⟩

/-- Settles O44: a store in reach of the register values. -/
theorem registerStoreWritesAscending : Obligations.RegisterStoreWritesAscending := fun s x =>
  ⟨wordXkk_fixed_first 0xF x 0x55 ▸ decodesTo_encode (.stRegs x), fun h =>
    ⟨_, exec_stRegs x s, frame_storeBytes_of_inReach (by rwa [length_regValues]), storedFrom_stRegs s x⟩⟩

/-- Settles O46: `storeBytes` faults at the first address above 0xFFF and has stored what its reach allows. -/
theorem storesFaultAtTheFirstAddressOutOfRange : Obligations.StoresFaultAtTheFirstAddressOutOfRange := by
  refine fun s x hp => ⟨fun h => ?_, fun h => ?_⟩
  · exact ⟨_, exec_ldB x s, storeBytes_outOfRange _ _ s hp h (by simp [decimalDigits]), storeBytes_frame _ _ s,
      storedFrom_ldB s x⟩
  · have hlen : memSize < s.dataBase + (s.regValues x).length := by rwa [length_regValues]
    have hne : s.regValues x ≠ [] := List.ne_nil_of_length_eq_add_one (length_regValues s x)
    exact ⟨_, exec_stRegs x s, storeBytes_outOfRange _ _ s hp hlen hne, storeBytes_frame _ _ s, storedFrom_stRegs s x⟩

/-! ### The instruction that loads -/

theorem exec_ldRegs (x : Reg) (s : State) : exec (.ldRegs x) s = .next (loadBytes (regsUpTo x) s.dataBase s) := rfl

/-- What a load of V0 to Vx leaves in one of them, whether or not it faults on the way. -/
theorem reg_ldRegs (s : State) {x r : Reg} (hr : r.toNat ≤ x.toNat) :
    (∀ e, eff s.params.oob (s.idx.toNat + r.toNat) = .ok e →
      (loadBytes (regsUpTo x) s.dataBase s).reg r = s.byteAt e) ∧
    (∀ f, eff s.params.oob (s.idx.toNat + r.toNat) = .error f →
      (loadBytes (regsUpTo x) s.dataBase s).reg r = s.reg r) := by
  have hk : r.toNat < (regsUpTo x).length := by
    rw [length_regsUpTo]
    omega
  have h := loadBytes_reg (regsUpTo x) s.dataBase s (nodup_regsUpTo x) r.toNat hk
  rwa [getElem_regsUpTo, BitVec.ofNat_toNat, BitVec.setWidth_eq] at h

theorem reg_ldRegs_above (s : State) {x r : Reg} (hr : x.toNat < r.toNat) :
    (loadBytes (regsUpTo x) s.dataBase s).reg r = s.reg r :=
  loadBytes_reg_of_not_mem _ _ s r fun hm => by
    have := mem_regsUpTo.1 hm
    omega

/-- Settles O45: the load names `V0` to `Vx` once each, and no register above. -/
theorem registerLoadReadsAscending : Obligations.RegisterLoadReadsAscending := by
  refine fun s x => ⟨wordXkk_fixed_first 0xF x 0x65 ▸ decodesTo_encode (.ldRegs x), fun h => ?_⟩
  refine ⟨_, exec_ldRegs x s, ?_, fun r e hr => (reg_ldRegs s hr).1 e, fun r => reg_ldRegs_above s⟩
  exact (loadBytes_frame _ _ s).erase .faulted (loadBytes_faulted _ _ s (by rwa [length_regsUpTo])) (by decide)

/-! ### The image copy -/

theorem hostApply_loadProgram {bytes : List Byte} (h : bytes.length ≤ 3584) (s : State) :
    hostApply (.loadProgram bytes) s = .next (copyImage bytes progBase s) := if_pos (decide_eq_true h)

theorem frame_copyImage (bytes : List Byte) (a : Nat) (s : State) : Frame s (copyImage bytes a s) [.mem] := by
  obtain ⟨m, hm⟩ := copyImage_shape bytes a s
  rw [hm]
  simp [frame_iff, State.reg, State.slot]

/-- Settles O60: `copyImage_byteAt` inside the image and outside it. -/
theorem loadProgramCopiesTheImage : Obligations.LoadProgramCopiesTheImage := by
  refine fun s bytes hlen => ⟨_, hostApply_loadProgram hlen s, frame_copyImage bytes _ s, fun k hk => ?_, fun a ha => ?_⟩
  · rw [copyImage_byteAt, progBase, if_pos (by omega), Nat.add_sub_cancel_left, List.getD_eq_getElem _ _ hk]
  · rw [copyImage_byteAt, progBase, if_neg (by omega)]

/-! ### The fetch of what was stored -/

theorem fetchSeesStored_of_storedFrom {s t : State} {base len : Nat} {byte : Nat → Byte} {p : Word}
    (h : StoredFrom s t base len byte) (hp : t.params = s.params) (hreach : InReach s.params.oob p.toNat 2) :
    FetchSeesStored s t base len byte p := by
  have hreach' : InReach (t.setPc p).params.oob p.toNat 2 := by rwa [State.setPc_params, hp]
  obtain ⟨e, e', he, he', hfetch⟩ := State.fetch_of_inReach hreach'
  exact ⟨_, _, hfetch, h.readsStored hp (State.memRead_of_eff he), h.readsStored hp (State.memRead_of_eff he')⟩

/-- Under wrap with x at least 1, the bytes that two reads in a row see where the first store and the second reached. -/
theorem byteAt_stRegs_of_wrap {s : State} {x : Reg} (hp : s.params.oob = .wrap) {k : Nat} (hk : k ≤ x.toNat) :
    (storeBytes (s.regValues x) s.dataBase s).byteAt ((s.idx.toNat + k) % 4096) = s.reg (BitVec.ofNat 4 k) := by
  have hx := x.isLt
  refine (storedFrom_stRegs s x).1 k _ (by omega) (by rw [hp, eff_wrap]) fun j hj hjx he => ?_
  rw [hp, eff_wrap] at he
  have := Except.ok.inj he
  omega

theorem fetches_of_wrap {s : State} (hp : s.params.oob = .wrap) :
    s.Fetches (wordOfBytes (s.byteAt (s.pc.toNat % 4096)) (s.byteAt ((s.pc.toNat + 1) % 4096))) := by
  obtain ⟨e, e', he, he', hfetch⟩ := State.fetch_of_inReach (inReach_of_ne_fault (by rw [hp]; decide) s.pc.toNat 2)
  rw [hp, eff_wrap] at he he'
  cases he
  cases he'
  exact ⟨_, _, hfetch, rfl⟩

/-- Settles O48: each of the three is a store, and a fetch is two reads; under wrap the two stores that the fetched word
comes from are not overwritten, since at most 16 addresses follow each other. -/
theorem storeIntoCodeIsFetched : Obligations.StoreIntoCodeIsFetched := by
  refine ⟨fun s x p hfetch => ⟨fun _ => ?_, fun _ => ?_, fun bytes hlen => ?_⟩, fun s x hp hx heq => ?_⟩
  · exact ⟨_, exec_ldB x s, fetchSeesStored_of_storedFrom (storedFrom_ldB s x) (storeBytes_params _ _ s) hfetch⟩
  · exact ⟨_, exec_stRegs x s, fetchSeesStored_of_storedFrom (storedFrom_stRegs s x) (storeBytes_params _ _ s) hfetch⟩
  · have hstored : StoredFrom s (copyImage bytes 0x200 s) 0x200 bytes.length (fun k => bytes.getD k 0) :=
      copyImage_stored bytes 0x200 s (by simp only [memSize]; omega)
    exact ⟨_, hostApply_loadProgram hlen s,
      fetchSeesStored_of_storedFrom hstored (frame_copyImage bytes _ s .params (by decide)) hfetch⟩
  · have hpos : 1 ≤ x.toNat := Nat.pos_of_ne_zero fun h0 => hx (BitVec.eq_of_toNat_eq h0)
    have hpc : (storeBytes (s.regValues x) s.dataBase s).pc = s.pc := storeBytes_frame _ _ s .pc (by decide)
    have hfetch := fetches_of_wrap (s := storeBytes (s.regValues x) s.dataBase s) (by rw [storeBytes_params, hp])
    simp only [memSize] at heq
    have hidx : s.pc.toNat % 4096 = (s.idx.toNat + 0) % 4096 := heq.symm
    have hidx' : (s.pc.toNat + 1) % 4096 = (s.idx.toNat + 1) % 4096 := by omega
    rw [hpc, hidx, hidx', byteAt_stRegs_of_wrap hp (Nat.zero_le _), byteAt_stRegs_of_wrap hp hpos] at hfetch
    exact ⟨_, exec_stRegs x s, hfetch⟩

end Sys2Proof.Machine
end

section
/-! PROOFS. The sprite: DRW in reach, and loads and draws out of reach (R54, R188 to R190). -/

namespace Sys2Proof.Machine

theorem exec_drw (x y : Reg) (n : Nibble) (s : State) :
    exec (.drw x y n) s = .next (drawRows (s.reg x).toNat (s.reg y).toNat n.toNat 0 false s) := rfl

/-- DRW flips what the sprite covers, whether or not it faults on the way. -/
theorem xoredBySprite_drw (s : State) (x y : Reg) (n : Nibble) :
    XoredBySprite s (drawRows (s.reg x).toNat (s.reg y).toNat n.toNat 0 false s) x y n := by
  intro c r hc hr
  have hn := n.isLt
  rw [spriteLit_iff_rowsLit s x y n hc hr]
  exact (drawRows_spec _ _ n.toNat 0 false s (by omega)).1 c r

/-- A collision is on the screen, where every pair of coordinates stands for its remainders. -/
theorem collides_iff_rowsLit (s : State) (x y : Reg) (n : Nibble) :
    Collides s x y n ↔ ∃ c r, RowsLit s (s.reg x).toNat (s.reg y).toNat 0 n.toNat c r ∧ pixel s.fb c r = true := by
  constructor
  · rintro ⟨c, r, hc, hr, hlit, hpix⟩
    exact ⟨c, r, (spriteLit_iff_rowsLit s x y n hc hr).1 hlit, hpix⟩
  · rintro ⟨c, r, hlit, hpix⟩
    have hc : c % 64 < 64 := Nat.mod_lt _ (by decide)
    have hr : r % 32 < 32 := Nat.mod_lt _ (by decide)
    exact ⟨c % 64, r % 32, hc, hr, (spriteLit_iff_rowsLit s x y n hc hr).2 ((rowsLit_mod _ _ _ _ _ c r).2 hlit),
      by rwa [pixel_mod]⟩

/-- Settles O51: `drawRows_spec` with all rows, its collision read on the screen. -/
theorem drawXorsTheSpriteAndReportsCollision : Obligations.DrawXorsTheSpriteAndReportsCollision := by
  refine fun s x y n => ⟨decodesTo_encode (.drw x y n), fun hreach => ?_⟩
  have hn := n.isLt
  obtain ⟨hfault, hit, hhit, hvf, hregs⟩ := (drawRows_spec (s.reg x).toNat (s.reg y).toNat n.toNat 0 false s
    (by omega)).2 fun k hk => by rw [Nat.zero_add]; exact State.memRead_of_inReach hreach hk
  have hcollides : hit = true ↔ Collides s x y n := by
    rw [hhit, collides_iff_rowsLit]
    simp
  refine ⟨_, exec_drw x y n s, xoredBySprite_drw s x y n, fun hc => ?_, fun hc => ?_, fun r hr => ?_,
    (frame_drawRows _ _ _ _ _ s).erase .faulted hfault (by decide)⟩
  · rw [hvf, hcollides.2 hc]
    rfl
  · rw [hvf, Bool.eq_false_iff.2 fun h => hc (hcollides.1 h)]
    rfl
  · exact hregs r (List.ne_of_not_mem_cons hr)

theorem State.reg_eq_of_v_eq {s t : State} (h : t.v = s.v) (r : Reg) : t.reg r = s.reg r := by
  simp only [State.reg, h]

/-- Settles O47: a load or a draw faults at the first address above 0xFFF, and has done what its reach allows. -/
theorem loadsAndDrawsFaultAtTheFirstAddressOutOfRange :
    Obligations.LoadsAndDrawsFaultAtTheFirstAddressOutOfRange := by
  refine fun s x y n hp => ⟨fun h => ?_, fun hn h => ?_⟩
  · have hlen : memSize < s.dataBase + (regsUpTo x).length := by rwa [length_regsUpTo]
    have hne : regsUpTo x ≠ [] := List.ne_nil_of_length_eq_add_one (length_regsUpTo x)
    refine ⟨_, exec_ldRegs x s, loadBytes_outOfRange _ _ s hp hlen hne, loadBytes_frame _ _ s, fun r => ?_⟩
    by_cases hr : r.toNat ≤ x.toNat
    · by_cases hmem : s.idx.toNat + r.toNat < memSize
      · rw [if_pos ⟨hr, hmem⟩]
        exact (reg_ldRegs s hr).1 _ (eff_of_lt _ hmem)
      · rw [if_neg fun h => hmem h.2]
        exact (reg_ldRegs s hr).2 _ (by rw [hp]; exact eff_fault_of_ge (Nat.le_of_not_lt hmem))
    · rw [if_neg fun h => hr h.1]
      exact reg_ldRegs_above s (Nat.lt_of_not_le hr)
  · have hne : n.toNat ≠ 0 := fun h0 => hn (BitVec.eq_of_toNat_eq h0)
    obtain ⟨hfault, hv⟩ := drawRows_outOfRange (s.reg x).toNat (s.reg y).toNat n.toNat 0 false s hp hne h
    exact ⟨_, exec_drw x y n s, hfault, (frame_drawRows _ _ _ _ _ s).erase .v (State.reg_eq_of_v_eq hv) (by decide),
      xoredBySprite_drw s x y n⟩

end Sys2Proof.Machine
end

section
/-! PROOFS. The key instructions (R206 to R208). -/

namespace Sys2Proof.Machine

theorem exec_skp (x : Reg) (s : State) : exec (.skp x) s = .next (s.skipIf (s.isPressed (s.reg x))) := rfl

theorem exec_sknp (x : Reg) (s : State) : exec (.sknp x) s = .next (s.skipIf (!s.isPressed (s.reg x))) := rfl

/-- A pressed key is a code of at most 15 (R202). -/
theorem isPressed_iff_le (s : State) (c : Byte) : s.isPressed c = true ↔ c.toNat ≤ 15 ∧ s.isPressed c = true := by
  refine ⟨fun h => ⟨?_, h⟩, fun h => h.2⟩
  by_contra hc
  rw [s.isPressed_of_ge c (by omega)] at h
  cases h

/-- Settles O52: both are a skip on one test, which is false of every code above 15. -/
theorem keySkipsTestTheKeySet : Obligations.KeySkipsTestTheKeySet := by
  refine fun s x => ⟨wordXkk_fixed_first 0xE x 0x9E ▸ decodesTo_encode (.skp x),
    wordXkk_fixed_first 0xE x 0xA1 ▸ decodesTo_encode (.sknp x),
    ⟨_, exec_skp x s, frame_skipIf s _, ?_⟩, ⟨_, exec_sknp x s, frame_skipIf s _, ?_⟩⟩
  · rw [skipIf_pc_toNat]
    exact if_congr (isPressed_iff_le s _) rfl rfl
  · rw [skipIf_pc_toNat, ← ite_not]
    exact if_congr (by rw [← isPressed_iff_le]; simp) rfl rfl

/-- Settles O53: the wait is two writes, of the pause and of the pending register. -/
theorem waitForKeyPauses : Obligations.WaitForKeyPauses := fun s x =>
  ⟨wordXkk_fixed_first 0xF x 0x0A ▸ decodesTo_encode (.ldVxK x), _, exec_ldVxK x s, rfl, rfl, frame_wait s x⟩

end Sys2Proof.Machine
end

section
/-! PROOFS. The host: reset, the fault mark, and the arguments of its operations (R39, R40, R184, R201, R237, R260, R261). -/

namespace Sys2Proof.Machine

/-! ### Reset -/

/-- Settles O1: each view of the reset state, the bytes by the two branches of `resetByte`. -/
theorem resetStateHoldsTheTableOfValues : Obligations.ResetStateHoldsTheTableOfValues := by
  refine ⟨rfl, fun p => ⟨rfl, fun a ha => ?_, fun a ha => ?_, reg_resetWith p, rfl, rfl, rfl, slot_resetWith p, rfl, rfl,
    rfl, pixel_resetWith p, fun k => ?_, rfl, rfl⟩⟩
  · rw [byteAt_resetWith, resetByte, dif_pos ha]
  · rw [byteAt_resetWith, resetByte, dif_neg (by omega)]
  · exact BitVec.getLsbD_zero

theorem frame_markAndDraws (s : State) (f : Option ModelFault) (d : Nat) :
    Frame s { s with faulted := f, draws := d } [.faulted, .draws] := by
  simp [frame_iff, State.byteAt, State.reg, State.slot]

/-- Settles O2: the host's reset is the reset state with the mark and the count of draws put back. -/
theorem hostResetReinitializesTheWholeBlock : Obligations.HostResetReinitializesTheWholeBlock := fun s =>
  ⟨_, rfl, rfl, frame_markAndDraws (State.resetWith s.params) s.faulted s.draws⟩

/-! ### The host's operations and the fault mark -/

theorem State.firePending_faulted (s : State) (k : Nibble) : (s.firePending k).faulted = s.faulted := by
  cases h : s.pending with
  | none => rw [State.firePending_of_none h]
  | some x => rw [State.firePending_of_some h]; rfl

theorem faulted_of_hostApply {op : HostOp} {s t : State} (hop : op ≠ .step) (h : hostApply op s = .next t) :
    t.faulted = s.faulted := by
  cases op with
  | step => exact absurd rfl hop
  | reset | getDisplay => cases h; rfl
  | loadProgram bytes =>
    rw [hostApply, loadProgram] at h
    split at h <;> cases h
    exact frame_copyImage bytes progBase s .faulted (by decide)
  | onKeyDown key =>
    rw [hostApply, onKeyDown] at h
    split at h <;> cases h
    exact s.firePending_faulted _
  | onKeyUp key =>
    rw [hostApply, onKeyUp] at h
    split at h <;> cases h
    rfl

/-- Settles O16: a faulted state takes no step, and the other operations leave the mark. -/
theorem faultedStateTakesNoStep : Obligations.FaultedStateTakesNoStep := by
  refine fun s f hf => ⟨step_of_faulted hf, fun op t h => ?_⟩
  by_cases hop : op = .step
  · subst hop
    cases (step_of_faulted hf).symm.trans h
  · rw [faulted_of_hostApply hop h, hf]

/-! ### Arguments -/

theorem hostApply_answers {op : HostOp} (hop : op.wellFormed = true) {s : State} (hf : s.faulted = none) :
    ∃ t, hostApply op s = .next t := by
  cases op with
  | reset | getDisplay => exact ⟨_, rfl⟩
  | step =>
    obtain ⟨t, ht, -⟩ := step_answers hf
    exact ⟨t, ht⟩
  | loadProgram bytes | onKeyDown key | onKeyUp key => exact ⟨_, if_pos hop⟩

theorem keyWellFormed_of_gt {k : Nat} (hk : 15 < k) : ¬ keyWellFormed k = true := fun h =>
  absurd (of_decide_eq_true h) (Nat.not_le_of_lt hk)

/-- Settles O57: the test of the argument is the only refusal of an operation, and a step of an unfaulted state answers. -/
theorem onlyBadArgumentsAreRefused : Obligations.OnlyBadArgumentsAreRefused := fun _ _ =>
  ⟨fun _ hk => ⟨if_neg (keyWellFormed_of_gt hk), if_neg (keyWellFormed_of_gt hk)⟩,
    fun _ hlen => if_neg fun h => absurd (of_decide_eq_true h) (Nat.not_le_of_lt hlen),
    fun hop hf => hostApply_answers hop hf, rfl, rfl⟩

end Sys2Proof.Machine
end
